-- ==== Sys2Proof/Word.lean ====
section
/-! DEFINITION. The word types of the block (00_scope.md rule R6). -/

namespace Sys2Proof

/-- A raw register byte, an immediate, a byte of the pack buffer or a character of OUT (R6, R10). -/
abbrev Byte := BitVec 8

/-- A command word (R70). -/
abbrev Word := BitVec 16

/-- A value the host writes to CMD, or reads from a register of the port (R36, R37). -/
abbrev PortValue := BitVec 32

end Sys2Proof
end

