-- ==== Sys2Proof/Syntax.lean ====
section
/-! DEFINITION. The commands of 30_encoding.md rule R73, one constructor each, the names their
operands are made of, and the pseudo-instructions of rule R82. -/

namespace Sys2Proof

/-- The admitted significant-bit widths, exactly these six (10_state.md rule R31). -/
inductive Width where
  | w8
  | w12
  | w13
  | w14
  | w15
  | w16
deriving DecidableEq, Repr

/-- DieIdentity (00_scope.md rule R12; codes in 10_state.md rule R34). -/
inductive Die where
  | accelerometer
  | gyroscope
  | magnetometer
deriving DecidableEq, Repr

/-- A channel's position in its die's order (10_state.md rule R35). `aux` is position 3:
temperature on the accelerometer, RHALL on the magnetometer, reserved on the gyroscope. -/
inductive Channel where
  | x
  | y
  | z
  | aux
deriving DecidableEq, Repr

/-- The per-channel descriptor of 10_state.md rule R30. -/
structure BitLayout where
  significantBits : Nat
  lsbShift        : Nat
  signBitPosition : Nat
deriving DecidableEq, Repr

/-- The ten commands (30_encoding.md rule R73), with their operands as rule R72 assembles them. -/
inductive Instr where
  /-- R100. -/
  | nop
  /-- R101: load the raw MSB byte. -/
  | ldm (b : Byte)
  /-- R102: load the raw LSB byte. -/
  | ldl (b : Byte)
  /-- R128: decode the raw pair at a width. -/
  | decw (n : Width)
  /-- R129: decode the raw pair with the layout of a die's channel. -/
  | decc (d : Die) (c : Channel)
  /-- R130: record a Failed reading. -/
  | fail
  /-- R144: emit the reading in decimal. -/
  | outd
  /-- R145: emit the reading as raw hex bytes. -/
  | outh
  /-- R147: append the reading to the pack buffer. -/
  | pack
  /-- R148: start a new pack sequence. -/
  | pclr
deriving DecidableEq, Repr

/-- The pseudo-instructions of 30_encoding.md rule R82. `read2` is READ of a channel of width over 8,
`readTemp` is `READ acc, t, m`. -/
inductive Pseudo where
  | ldr (m l : Byte)
  | read2 (d : Die) (c : Channel) (m l : Byte)
  | readTemp (m : Byte)
  | miss
deriving DecidableEq, Repr

end Sys2Proof
end

