-- ==== Sys2Proof/Machine/Layout.lean ====
section
/-! DEFINITION. The layout table (10_state.md rules R30 to R33). It is the one place that holds the
widths of the channels, as 93_implementation_defined.md U6 asks. UNVERIFIED (log entry 15): the
source's numbers are unaudited. -/

namespace Sys2Proof

/-- significantBits of an admitted width (R31). -/
def Width.bits : Width → Nat
  | .w8 => 8
  | .w12 => 12
  | .w13 => 13
  | .w14 => 14
  | .w15 => 15
  | .w16 => 16

/-- `lsbShift(n) = 16 − n` (R14, R32). -/
def Width.lsbShift (n : Width) : Nat := 16 - n.bits

/-- `signBitPosition(n) = n − 1` (R14, R30). -/
def Width.signBitPosition (n : Width) : Nat := n.bits - 1

/-- The BitLayout of a width (R30, R32). -/
def Width.layout (n : Width) : BitLayout :=
  { significantBits := n.bits, lsbShift := n.lsbShift, signBitPosition := n.signBitPosition }

/-- `layoutWidth(die, ch)`: the significantBits column of the table of R33, undefined off its rows. -/
def layoutWidth : Die → Channel → Option Width
  | .accelerometer, .x => some .w12
  | .accelerometer, .y => some .w12
  | .accelerometer, .z => some .w12
  | .accelerometer, .aux => some .w8
  | .gyroscope, .x => some .w16
  | .gyroscope, .y => some .w16
  | .gyroscope, .z => some .w16
  | .gyroscope, .aux => none
  | .magnetometer, .x => some .w13
  | .magnetometer, .y => some .w13
  | .magnetometer, .z => some .w15
  | .magnetometer, .aux => some .w14

/-- The layout constant of a channel (R30: "defined per die/channel combination"). -/
def channelLayout (d : Die) (c : Channel) : Option BitLayout := (layoutWidth d c).map Width.layout

end Sys2Proof
end

