-- ==== Sys2Proof/WellFormed.lean ====
section
/-! DEFINITION. Which terms of `Instr` and `Pseudo` are commands of the block. Every other legality
check of 30_encoding.md (rules R74 to R76) is carried by the types: no term has a reserved opcode, a
reserved width or a reserved die. -/

namespace Sys2Proof

/-- R77: the die and channel of DECC must be a row of the layout table. -/
def Instr.wellFormed : Instr → Bool
  | .nop => true
  | .ldm _ => true
  | .ldl _ => true
  | .decw _ => true
  | .decc d c => (layoutWidth d c).isSome
  | .fail => true
  | .outd => true
  | .outh => true
  | .pack => true
  | .pclr => true

/-- R82: the four-operand READ is for a channel of width over 8. -/
def Pseudo.wellFormed : Pseudo → Bool
  | .ldr _ _ => true
  | .read2 d c _ _ =>
    match layoutWidth d c with
    | some n => n.bits > 8
    | none => false
  | .readTemp _ => true
  | .miss => true

end Sys2Proof
end

