-- ==== Sys2Proof/Decode.lean ====
section
/-! DEFINITION. Decoding and encoding of command words (30_encoding.md). The decoder is total and
rejects by name; the encoder after it is written from the same tables. -/

namespace Sys2Proof

/-- Why a value is no command. Each is an ILLEGAL_CMD of 60_exceptions.md rule R202, but for
`truncated`, which only a byte image that ends inside a word can meet. -/
inductive Illegal where
  /-- R71: bits [31:16] of the CMD write are not zero. -/
  | upperBits
  /-- R74: OP is 0xA to 0xF. -/
  | reservedOpcode
  /-- R75: F is not zero where it must be. -/
  | nonzeroF
  /-- R75: I is not zero where it must be. -/
  | nonzeroI
  /-- R76: a width code that selects no admitted width. -/
  | reservedWidth
  /-- R77: a die and channel that are no row of the layout table. -/
  | reservedChannel
  /-- A byte image shorter than one word. -/
  | truncated
deriving DecidableEq, Repr

/-- What a decoder answers: a command, or the reason there is none. -/
inductive Decoded (α : Type) where
  | ok (a : α)
  | illegal (r : Illegal)
deriving DecidableEq, Repr

/-! ### Fields (R70) -/

/-- OP, bits [15:12]. -/
def opField (w : Word) : BitVec 4 := w.extractLsb' 12 4

/-- F, bits [11:8]. -/
def fField (w : Word) : BitVec 4 := w.extractLsb' 8 4

/-- I, bits [7:0]. -/
def iField (w : Word) : Byte := w.extractLsb' 0 8

/-- The word with the given fields. -/
def mkWord (op f : BitVec 4) (i : Byte) : Word := (op ++ f) ++ i

/-- Bits [31:16] of a CMD write (R71). -/
def upperField (v : PortValue) : Word := v.extractLsb' 16 16

/-- Bits [15:0] of a CMD write, the command word (R37). -/
def lowerField (v : PortValue) : Word := v.extractLsb' 0 16

/-! ### Decoding -/

/-- R76: the widths that a width code `F = n − 8` selects. -/
def widthOfCode : BitVec 4 → Option Width
  | 0x0#4 => some .w8
  | 0x4#4 => some .w12
  | 0x5#4 => some .w13
  | 0x6#4 => some .w14
  | 0x7#4 => some .w15
  | 0x8#4 => some .w16
  | _ => none

/-- R34; code 3 is reserved. -/
def dieOfCode : BitVec 2 → Option Die
  | 0#2 => some .accelerometer
  | 1#2 => some .gyroscope
  | 2#2 => some .magnetometer
  | _ => none

/-- R35. -/
def channelOfCode : BitVec 2 → Channel
  | 0#2 => .x
  | 1#2 => .y
  | 2#2 => .z
  | _ => .aux

/-- A command with no operand: F and I must be zero (R75). -/
def decodeNoOperand (f : BitVec 4) (i : Byte) (c : Instr) : Decoded Instr :=
  if f ≠ 0#4 then .illegal .nonzeroF
  else if i ≠ 0#8 then .illegal .nonzeroI
  else .ok c

/-- A command whose operand is the byte I: F must be zero (R72, R75). -/
def decodeByteOperand (f : BitVec 4) (i : Byte) (mk : Byte → Instr) : Decoded Instr :=
  if f ≠ 0#4 then .illegal .nonzeroF else .ok (mk i)

/-- DECW: I must be zero, F is a width code (R72, R75, R76). -/
def decodeWidthOperand (f : BitVec 4) (i : Byte) : Decoded Instr :=
  if i ≠ 0#8 then .illegal .nonzeroI
  else match widthOfCode f with
    | some n => .ok (.decw n)
    | none => .illegal .reservedWidth

/-- DECC: I must be zero, the die is F[3:2] and the channel F[1:0], a row of the table (R72, R75, R77). -/
def decodeChannelOperand (f : BitVec 4) (i : Byte) : Decoded Instr :=
  if i ≠ 0#8 then .illegal .nonzeroI
  else match dieOfCode (f.extractLsb' 2 2) with
    | none => .illegal .reservedChannel
    | some d =>
      match layoutWidth d (channelOfCode (f.extractLsb' 0 2)) with
      | none => .illegal .reservedChannel
      | some _ => .ok (.decc d (channelOfCode (f.extractLsb' 0 2)))

/-- The opcode map (R73) over the three fields. -/
def decodeFields (op f : BitVec 4) (i : Byte) : Decoded Instr :=
  match op with
  | 0x0#4 => decodeNoOperand f i .nop
  | 0x1#4 => decodeByteOperand f i .ldm
  | 0x2#4 => decodeByteOperand f i .ldl
  | 0x3#4 => decodeWidthOperand f i
  | 0x4#4 => decodeChannelOperand f i
  | 0x5#4 => decodeNoOperand f i .fail
  | 0x6#4 => decodeNoOperand f i .outd
  | 0x7#4 => decodeNoOperand f i .outh
  | 0x8#4 => decodeNoOperand f i .pack
  | 0x9#4 => decodeNoOperand f i .pclr
  | _ => .illegal .reservedOpcode

/-- The decoder on the 65536 command words (R80). -/
def decodeWord (w : Word) : Decoded Instr := decodeFields (opField w) (fField w) (iField w)

/-- The decoder on a 32-bit CMD write: the upper half is checked first (R71, R78). -/
def decodeCmd (v : PortValue) : Decoded Instr :=
  if upperField v ≠ 0#16 then .illegal .upperBits else decodeWord (lowerField v)

/-- The decoder on a byte image: one word, high byte first (20_memory.md rule R64), and the rest. -/
def decodeBytes : List Byte → Decoded (Instr × List Byte)
  | hi :: lo :: rest =>
    match decodeWord (hi ++ lo) with
    | .ok i => .ok (i, rest)
    | .illegal r => .illegal r
  | _ => .illegal .truncated

/-- The command an opcode-table word of `nbits` bits stands for, read as the CMD write of that value. -/
def decodeTableWord (nbits w : Nat) : Option Instr :=
  match decodeCmd (BitVec.ofNat 32 (w % 2 ^ nbits)) with
  | .ok i => some i
  | .illegal _ => none

/-! ### Encoding -/

/-- The width code of R76: `F = n − 8`. -/
def widthCode : Width → BitVec 4
  | .w8 => 0x0#4
  | .w12 => 0x4#4
  | .w13 => 0x5#4
  | .w14 => 0x6#4
  | .w15 => 0x7#4
  | .w16 => 0x8#4

/-- R34. -/
def dieCode : Die → BitVec 2
  | .accelerometer => 0#2
  | .gyroscope => 1#2
  | .magnetometer => 2#2

/-- R35. -/
def channelCode : Channel → BitVec 2
  | .x => 0#2
  | .y => 1#2
  | .z => 2#2
  | .aux => 3#2

/-- The word of a command (R73, R81, R83). -/
def encode : Instr → Word
  | .nop => mkWord 0x0#4 0x0#4 0x00#8
  | .ldm b => mkWord 0x1#4 0x0#4 b
  | .ldl b => mkWord 0x2#4 0x0#4 b
  | .decw n => mkWord 0x3#4 (widthCode n) 0x00#8
  | .decc d c => mkWord 0x4#4 (dieCode d ++ channelCode c) 0x00#8
  | .fail => mkWord 0x5#4 0x0#4 0x00#8
  | .outd => mkWord 0x6#4 0x0#4 0x00#8
  | .outh => mkWord 0x7#4 0x0#4 0x00#8
  | .pack => mkWord 0x8#4 0x0#4 0x00#8
  | .pclr => mkWord 0x9#4 0x0#4 0x00#8

/-- The CMD write that submits a command: its word, bits [31:16] zero (R37). -/
def cmdWrite (i : Instr) : PortValue := (encode i).setWidth 32

/-- A byte image of commands, each word high byte first (R64). -/
def encodeBytes : List Instr → List Byte
  | [] => []
  | i :: is => (encode i).extractLsb' 8 8 :: (encode i).extractLsb' 0 8 :: encodeBytes is

/-- The expansions of the pseudo-instructions (R82). -/
def Pseudo.expand : Pseudo → List Instr
  | .ldr m l => [.ldm m, .ldl l]
  | .read2 d c m l => [.ldm m, .ldl l, .decc d c]
  | .readTemp m => [.ldm m, .decc .accelerometer .aux]
  | .miss => [.fail]

end Sys2Proof
end

