-- ==== Sys2Proof/Config.lean ====
section
/-! DEFINITION. The two OPEN parameters of 00_scope.md rule R6. -/

namespace Sys2Proof

/-- `BLOCK_BASE`, the base address of the host port (R36): an OPEN parameter, so a constant with no
value that a proof could use. DESIGN CHOICE (log entry 4): an address is a natural number. -/
opaque Config.blockBase : Nat

/-- The length of the pack buffer that `State.reset` starts with. `BUF_LEN` itself is a field of
State (R51: fixed for a run, supplied by the host). DESIGN CHOICE (log entry 3), unsafe: the spec
leaves the parameter open, and no statement rests on this number. -/
def Config.bufLenAtReset : BitVec 16 := 65535#16

end Sys2Proof
end

