-- ==== Sys2Proof/Machine/State.lean ====
section
/-! DEFINITION. The state of the block (10_state.md rules R21, R28, R29, R47), the pack buffer
(20_memory.md rule R51) and the host's command list; the reasons a step can stop. -/

namespace Sys2Proof.Machine

/-- RSTAT, the status of the ChannelReading (R24). Code 3 is never produced, and the type leaves it
out, as 93_implementation_defined.md U8 asks. -/
inductive RStat where
  /-- 0: no reading since reset. -/
  | none
  /-- 1: `Ok(RESULT, R_MSB, R_LSB)`. -/
  | ok
  /-- 2: `Failed`. -/
  | failed
deriving DecidableEq, Repr

/-- FAULT_CODE (60_exceptions.md rule R202). Codes 5 to 7 are never raised, and the type leaves them
out (U8). -/
inductive FaultCode where
  /-- 0. -/
  | none
  /-- 1. -/
  | illegalCmd
  /-- 2. -/
  | rawUnwritten
  /-- 3. -/
  | noReading
  /-- 4. -/
  | packOverflow
deriving DecidableEq, Repr

/-- The pack buffer's bytes that have been written, by index: indices strictly rising. An index that
is not listed holds a byte of the host's that the block does not know (U10, log entry 5). -/
abbrev Memory := List Host.Cell

/-- The architectural state (R21), with OUT (R28), pc (R29), the pack buffer and its length (R51), and
the host's command list (R29). -/
structure State where
  /-- RAW_MSB -/
  rawMsb    : Byte
  /-- RAW_LSB -/
  rawLsb    : Byte
  /-- MSB_V -/
  msbV      : Bool
  /-- LSB_V -/
  lsbV      : Bool
  /-- RSTAT -/
  rstat     : RStat
  /-- RESULT, the two's-complement pattern of an s32 -/
  result    : BitVec 32
  /-- R_MSB -/
  rMsb      : Byte
  /-- R_LSB -/
  rLsb      : Byte
  /-- PIDX -/
  pidx      : BitVec 16
  /-- FAULT_CODE -/
  faultCode : FaultCode
  /-- FAULT_CMD -/
  faultCmd  : Word
  /-- HALTED -/
  halted    : Bool
  /-- OUT, the first byte emitted first -/
  out       : List Byte
  /-- pc, the index in `prog` of the next command -/
  pc        : Nat
  /-- the pack buffer -/
  packBuf   : Memory
  /-- BUF_LEN -/
  bufLen    : BitVec 16
  /-- the values the host writes to CMD in this run, in order (log entries 1 and 2) -/
  prog      : List PortValue
deriving DecidableEq, Repr

/-- The reasons for which the machine is stuck. The four faults of the block are no members: they
are entered as next states (R205). -/
inductive Fault where
  /-- Raised by `step` alone, in a state with HALTED = 1: "a halted block has no step" (R206). Safe:
  the machine stops where the hardware ignores every further command. -/
  | halted
deriving DecidableEq, Repr

/-- The reasons for which the model gives no answer. -/
inductive Refusal where
  /-- An instruction whose meaning is not written, by its mnemonic. Raised by no arm. Safe. -/
  | notModelled (mnemonic : String)
  /-- Raised by `step` when the host has written no further command: `pc = L`, the run is over (R29,
  R222). Safe: nothing happens in the block until the host writes. -/
  | noCommand
  /-- Raised by `portRead` and `portWrite` for an offset, a width or an alignment that R43 puts
  outside the spec ("a model refuses it"). Safe. -/
  | portAccess
  /-- Raised by `hostWriteBuffer` for an index that the pack buffer does not have (R51). Safe. -/
  | outsideBuffer
deriving DecidableEq, Repr

/-- The machine right after reset: the values of R47; no byte of the pack buffer known, its length an
open parameter (log entries 3 and 5); no command list yet (log entry 1). -/
def State.reset : State where
  rawMsb := 0x00#8
  rawLsb := 0x00#8
  msbV := false
  lsbV := false
  rstat := .none
  result := 0#32
  rMsb := 0x00#8
  rLsb := 0x00#8
  pidx := 0#16
  faultCode := .none
  faultCmd := 0x0000#16
  halted := false
  out := []
  pc := 0
  packBuf := []
  bufLen := Config.bufLenAtReset
  prog := []

end Sys2Proof.Machine
end

