-- ==== Sys2Proof/Machine/Ops.lean ====
section
/-! DEFINITION. The named operations over the registers, the pack buffer and OUT, and the shared forms
of a command: ignored while halted, completing, taking a fault (R9, R10, R11, R205, R206). -/

namespace Sys2Proof.Machine

/-- What a command, and a step, answers. -/
abbrev Result := Host.Outcome State Fault Refusal

/-! ### Pack buffer (20_memory.md rule R51) -/

/-- The byte at an index; none where nothing has been written (U10, log entry 5). -/
def Memory.read : Memory → Nat → Option Byte
  | [], _ => none
  | (k, v) :: m, a => if k = a then some v else Memory.read m a

/-- Set the byte at an index, keeping the indices strictly rising. -/
def Memory.write : Memory → Nat → Byte → Memory
  | [], a, v => [(a, v)]
  | (k, u) :: m, a, v =>
    if a < k then (a, v) :: (k, u) :: m
    else if a = k then (a, v) :: m
    else (k, u) :: Memory.write m a v

/-- Every index listed is at or above `lo`, and the indices rise strictly. -/
def Memory.risesFrom : Nat → Memory → Bool
  | _, [] => true
  | lo, (k, _) :: m => decide (lo ≤ k) && Memory.risesFrom (k + 1) m

/-- The canonical form: indices strictly rising. (No entry can equal what an unlisted index reads as,
since that is no byte.) -/
def Memory.wf (m : Memory) : Bool := Memory.risesFrom 0 m

/-- Every index listed lies in a buffer of `len` bytes. -/
def Memory.below (len : Nat) (m : Memory) : Bool := m.all (fun c => decide (c.1 < len))

/-- The byte the host reads at an index of the pack buffer, as far as the block has determined it. -/
def readBuffer (s : State) (a : Nat) : Option Byte := Memory.read s.packBuf a

/-! ### Registers -/

/-- `RAW_MSB <- b; MSB_V <- 1` (R101). -/
def State.loadMsb (s : State) (b : Byte) : State := { s with rawMsb := b, msbV := true }

/-- `RAW_LSB <- b; LSB_V <- 1` (R102). -/
def State.loadLsb (s : State) (b : Byte) : State := { s with rawLsb := b, lsbV := true }

/-- The ChannelReading is replaced as a whole (R24). -/
def State.setReading (s : State) (st : RStat) (v : BitVec 32) (m l : Byte) : State :=
  { s with rstat := st, result := v, rMsb := m, rLsb := l }

/-- `PIDX <- p` (R26). -/
def State.setPidx (s : State) (p : BitVec 16) : State := { s with pidx := p }

/-- `Emit(bs)` (R10, R56): append to OUT. -/
def State.emit (s : State) (bs : List Byte) : State := { s with out := s.out ++ bs }

/-- `MemWrite(a, 1, v)` (R10, R51). The caller has checked `a < BUF_LEN`: PACK does (R147). -/
def State.memWrite (s : State) (a : Nat) (v : Byte) : State :=
  { s with packBuf := Memory.write s.packBuf a v }

/-- `pc <- pc + 1` (R29). -/
def State.advance (s : State) : State := { s with pc := s.pc + 1 }

/-- Fault entry (R205): the three fault registers, and nothing else. -/
def State.faultEntry (s : State) (code : FaultCode) (cmd : Word) : State :=
  { s with faultCode := code, faultCmd := cmd, halted := true }

/-! ### The forms of a command -/

/-- R206: while HALTED = 1 a command is ignored, and no state changes. -/
def whenRunning (s : State) (k : State → Result) : Result := if s.halted then .next s else k s

/-- The end of every command that completes: `pc <- pc + 1` (R11). -/
def complete (s : State) : Result := .next s.advance

/-- `raise Fault(code)` (R10, R205): taking a fault is a next state. There is no return from one
(R207). -/
def raiseFault (code : FaultCode) (cmd : Word) (s : State) : Result := .next (s.faultEntry code cmd)

/-! ### The host's command list (10_state.md rule R29) -/

/-- `prog[pc]`, the next value the host writes to CMD; none when `pc = L`. -/
def nextCommand (s : State) : Option PortValue := s.prog[s.pc]?

/-- The list with `v` at index `n`, filled up with NOPs where it was shorter. -/
def setCommandAt : List PortValue → Nat → PortValue → List PortValue
  | [], 0, v => [v]
  | [], n + 1, v => cmdWrite .nop :: setCommandAt [] n v
  | _ :: p, 0, v => v :: p
  | x :: p, n + 1, v => x :: setCommandAt p n v

/-! ### The host's other actions -/

/-- Reset as an action of the platform (R250 to R252), at the start of a run with its own command list
(R222): every piece of the block's state as in R47; the pack buffer, which is the host's, unchanged. -/
def startRun (cmds : List PortValue) (s : State) : State :=
  { State.reset with packBuf := s.packBuf, bufLen := s.bufLen, prog := cmds }

/-- The host provides a pack buffer of `len` bytes (R51, R254): none of its bytes is known. -/
def supplyBuffer (len : BitVec 16) (s : State) : State := { s with packBuf := [], bufLen := len }

/-- The host writes a byte of the pack buffer, which is its own memory (R59(e)). -/
def hostWriteBuffer (a : Nat) (v : Byte) (s : State) : Result :=
  if a < s.bufLen.toNat then .next (s.memWrite a v) else .refused .outsideBuffer

end Sys2Proof.Machine
end

