-- ==== Sys2Proof/Machine/Operands.lean ====
section
/-! DEFINITION. What a command reads: the raw pair of a decode, the bytes a reading records, the two
bytes PACK writes and where (41_codec.md rules R120 to R127, 42_formatter.md rules R146, R147). -/

namespace Sys2Proof.Machine

/-! ### The codec (R120 to R125), exact on integers -/

/-- Combine (R121): the MSB's 8 bits above the LSB's retained high bits. The MSB shift is 8 − s
(90_conflicts.md C2). -/
def combine (n : Width) (msb lsb : Byte) : Nat :=
  (msb.toNat <<< (8 - n.lsbShift)) ||| (lsb.toNat >>> n.lsbShift)

/-- Sign-extend (R122): flip the sign bit, then subtract the bias, as exact integers. -/
def signExtend (n : Width) (raw : Nat) : Int :=
  ((raw ^^^ (1 <<< n.signBitPosition) : Nat) : Int) - ((1 <<< n.signBitPosition : Nat) : Int)

/-- The direct case (R123): the pair as a 16-bit two's-complement pattern. -/
def directRead (msb lsb : Byte) : Int := (msb ++ lsb : Word).toInt

/-- `decode(msb, lsb, n)` (R120). -/
def codec (n : Width) (msb lsb : Byte) : Int :=
  match n with
  | .w16 => directRead msb lsb
  | .w8 | .w12 | .w13 | .w14 | .w15 => signExtend n (combine n msb lsb)

/-- `trunc_n(v)` for a width n (R8): the n-bit pattern of an integer. -/
def truncTo (n : Width) (v : Int) : Nat := (v % 2 ^ n.bits).toNat

/-- `pack_n(v)` (R131): the raw pair that decodes to v. -/
def packRaw (n : Width) (v : Int) : Byte × Byte :=
  (BitVec.ofNat 8 (truncTo n v >>> (n.bits - 8)),
   BitVec.ofNat 8 ((truncTo n v % 2 ^ (n.bits - 8)) <<< n.lsbShift))

/-! ### Operands of the decode commands -/

/-- RESULT's new value: the codec of the raw pair, as an s32 pattern (R120, R128). -/
def decodedResult (n : Width) (s : State) : BitVec 32 := BitVec.ofInt 32 (codec n s.rawMsb s.rawLsb)

/-- The LSB a reading records: 0x00 at width 8, RAW_LSB otherwise (R127, R128). -/
def recordedLsb (n : Width) (s : State) : Byte :=
  match n with
  | .w8 => 0x00#8
  | .w12 | .w13 | .w14 | .w15 | .w16 => s.rawLsb

/-! ### Operands of PACK -/

/-- Where PACK writes its first byte (R147); the second is one index higher. -/
def packIndex (s : State) : Nat := s.pidx.toNat

/-- `trunc_16(RESULT)` (R8, R146). -/
def packedHalf (s : State) : Word := s.result.setWidth 16

/-- `packBytes()` (R146): most significant byte first; two zero bytes for a Failed reading. -/
def packBytes (s : State) : Byte × Byte :=
  match s.rstat with
  | .failed => (0x00#8, 0x00#8)
  | .ok | .none => ((packedHalf s).extractLsb' 8 8, (packedHalf s).extractLsb' 0 8)

end Sys2Proof.Machine
end

