-- ==== Sys2Proof/Machine/Flags.lean ====
section
/-! DEFINITION. The status fields: what MSB_V, LSB_V, RSTAT and PIDX allow a command, and the codes of
RSTAT and FAULT_CODE (10_state.md rules R23, R24, R39, R41; 42_formatter.md rule R147). -/

namespace Sys2Proof.Machine

/-- The 2-bit code of RSTAT (R21, R39). -/
def RStat.code : RStat → BitVec 2
  | .none => 0#2
  | .ok => 1#2
  | .failed => 2#2

/-- The 3-bit code of FAULT_CODE (R41, R202). -/
def FaultCode.code : FaultCode → BitVec 3
  | .none => 0#3
  | .illegalCmd => 1#3
  | .rawUnwritten => 2#3
  | .noReading => 3#3
  | .packOverflow => 4#3

/-- Every raw byte that a decode of width n reads has been written: MSB_V for every width, LSB_V for a
width over 8 (R127, R128). -/
def rawReady (n : Width) (s : State) : Bool := s.msbV && (decide (n.bits ≤ 8) || s.lsbV)

/-- The two bytes of a PACK fit: PIDX + 2 ≤ BUF_LEN, with no wrap in the sum (R147). -/
def packFits (s : State) : Bool := decide (packIndex s + 2 ≤ s.bufLen.toNat)

/-- The commands that need a reading fault with NO_READING while RSTAT = NONE (R144, R145, R147). -/
def withReading (cmd : Word) (s : State) (k : State → Result) : Result :=
  match s.rstat with
  | .none => raiseFault .noReading cmd s
  | .ok | .failed => k s

end Sys2Proof.Machine
end

