-- ==== Sys2Proof/Machine/Codec.lean ====
section
/-! DEFINITION. DECW, DECC and FAIL, the commands that write the ChannelReading (41_codec.md rules R128
to R130). -/

namespace Sys2Proof.Machine

/-- The common pseudocode of DECW and DECC from its first check on (R128, R129). -/
def decodePair (n : Width) (cmd : Word) (s : State) : Result :=
  if rawReady n s then
    complete (s.setReading .ok (decodedResult n s) s.rawMsb (recordedLsb n s))
  else raiseFault .rawUnwritten cmd s

/-- R128. -/
def execDecw (n : Width) (s : State) : Result :=
  whenRunning s (decodePair n (encode (.decw n)))

/-- R129. The pair of names that is no row of the layout table is the word 0x4700, which the decoder
refuses; its meaning is the ILLEGAL_CMD that the rule gives it (log entry 8). -/
def execDecc (d : Die) (c : Channel) (s : State) : Result :=
  whenRunning s fun s =>
    match layoutWidth d c with
    | some n => decodePair n (encode (.decc d c)) s
    | none => raiseFault .illegalCmd (encode (.decc d c)) s

/-- R130. -/
def execFail (s : State) : Result :=
  whenRunning s fun s => complete (s.setReading .failed 0#32 0x00#8 0x00#8)

end Sys2Proof.Machine
end

