-- ==== Sys2Proof/Machine/Formatter.lean ====
section
/-! DEFINITION. The renderings and OUTD, OUTH, PACK, PCLR (42_formatter.md rules R140 to R148). The
characters are ASCII bytes (93_implementation_defined.md G1). -/

namespace Sys2Proof.Machine

/-! ### Renderings -/

/-- The comma that ends every unit (R140). -/
def comma : Byte := 0x2C#8

/-- The minus sign (R141, R142). -/
def minus : Byte := 0x2D#8

/-- The space between the two bytes of a hex token (R143). -/
def space : Byte := 0x20#8

/-- The placeholder of a Failed reading (R141). -/
def placeholder : List Byte := [minus, minus, minus, minus]

/-- A decimal digit (R142). -/
def decDigit (d : Nat) : Byte := BitVec.ofNat 8 (0x30 + d)

/-- At most `fuel` base-10 digits of m, most significant first. -/
def digitsUpTo : Nat → Nat → List Byte
  | 0, _ => []
  | fuel + 1, m =>
    if m < 10 then [decDigit m] else digitsUpTo fuel (m / 10) ++ [decDigit (m % 10)]

/-- `digits(m)` (R142); m + 1 digits always suffice. -/
def digits (m : Nat) : List Byte := digitsUpTo (m + 1) m

/-- `dec(v)` (R142). -/
def dec (v : Int) : List Byte := if v < 0 then minus :: digits (-v).toNat else digits v.toNat

/-- `h(d)`: a lowercase hex digit (R143). -/
def hexDigit (d : BitVec 4) : Byte :=
  if d.toNat < 10 then BitVec.ofNat 8 (0x30 + d.toNat) else BitVec.ofNat 8 (0x61 + (d.toNat - 10))

/-- `hex2(b)` (R143). -/
def hex2 (b : Byte) : List Byte :=
  [0x30#8, 0x78#8, hexDigit (b.extractLsb' 4 4), hexDigit (b.extractLsb' 0 4)]

/-- The decimal token of the current reading (R141, R142, R144). -/
def decToken (s : State) : List Byte :=
  match s.rstat with
  | .failed => placeholder
  | .ok | .none => dec s.result.toInt

/-- The hex token of the current reading (R141, R143, R145). -/
def hexToken (s : State) : List Byte :=
  match s.rstat with
  | .failed => placeholder
  | .ok | .none => hex2 s.rMsb ++ [space] ++ hex2 s.rLsb

/-! ### Commands -/

/-- R144. -/
def execOutd (s : State) : Result :=
  whenRunning s fun s =>
    withReading (encode .outd) s fun s => complete (s.emit (decToken s ++ [comma]))

/-- R145. -/
def execOuth (s : State) : Result :=
  whenRunning s fun s =>
    withReading (encode .outh) s fun s => complete (s.emit (hexToken s ++ [comma]))

/-- The writes of PACK (R147): the bytes at PIDX and PIDX + 1, then PIDX + 2. -/
def State.packReading (s : State) : State :=
  ((s.memWrite (packIndex s) (packBytes s).1).memWrite (packIndex s + 1) (packBytes s).2).setPidx
    (s.pidx + 2#16)

/-- R147; NO_READING is checked before PACK_OVERFLOW (60_exceptions.md rule R203). -/
def execPack (s : State) : Result :=
  whenRunning s fun s =>
    withReading (encode .pack) s fun s =>
      if packFits s then complete s.packReading else raiseFault .packOverflow (encode .pack) s

/-- R148. -/
def execPclr (s : State) : Result := whenRunning s fun s => complete (s.setPidx 0#16)

end Sys2Proof.Machine
end

