-- ==== Sys2Proof/Machine/RawInput.lean ====
section
/-! DEFINITION. NOP, LDM and LDL (40_raw_input.md rules R100 to R102). -/

namespace Sys2Proof.Machine

/-- R100. -/
def execNop (s : State) : Result := whenRunning s complete

/-- R101. -/
def execLdm (b : Byte) (s : State) : Result := whenRunning s fun s => complete (s.loadMsb b)

/-- R102. -/
def execLdl (b : Byte) (s : State) : Result := whenRunning s fun s => complete (s.loadLsb b)

end Sys2Proof.Machine
end

