-- ==== Sys2Proof/Machine/Dispatch.lean ====
section
/-! DEFINITION. The meaning of a command: one arm per constructor (30_encoding.md rule R73). -/

namespace Sys2Proof.Machine

def exec (i : Instr) (s : State) : Host.Outcome State Fault Refusal :=
  match i with
  | .nop => Sys2Proof.Machine.execNop s
  | .ldm b => Sys2Proof.Machine.execLdm b s
  | .ldl b => Sys2Proof.Machine.execLdl b s
  | .decw n => Sys2Proof.Machine.execDecw n s
  | .decc d c => Sys2Proof.Machine.execDecc d c s
  | .fail => Sys2Proof.Machine.execFail s
  | .outd => Sys2Proof.Machine.execOutd s
  | .outh => Sys2Proof.Machine.execOuth s
  | .pack => Sys2Proof.Machine.execPack s
  | .pclr => Sys2Proof.Machine.execPclr s

end Sys2Proof.Machine
end

