-- ==== Sys2Proof/Machine/Command.lean ====
section
/-! DEFINITION. The common step of a CMD write (30_encoding.md rule R78) and the next command of a run
(10_state.md rule R29). -/

namespace Sys2Proof.Machine

/-- `on CMD write v` (R78): ignored while halted; ILLEGAL_CMD for bits [31:16] or for an illegal word;
otherwise the command. FAULT_CMD holds the low half of the write (R41, R205). -/
def submit (v : PortValue) (s : State) : Result :=
  whenRunning s fun s =>
    match decodeCmd v with
    | .illegal _ => raiseFault .illegalCmd (lowerField v) s
    | .ok i => exec i s

/-- One step of a run: the host's next CMD write. "A halted block has no step" (R206); at the end of
the command list the run is over (R222). -/
def runStep (s : State) : Result :=
  if s.halted then .fault .halted
  else match nextCommand s with
    | some v => submit v s
    | none => .refused .noCommand

end Sys2Proof.Machine
end

