-- ==== Sys2Proof/Machine/Step.lean ====
section
/-! DEFINITION. The step of the machine, and where it takes its next command from. -/

namespace Sys2Proof.Machine

/-- One step: the next command of the host's list (10_state.md rule R29). -/
def step (s : State) : Host.Outcome State Fault Refusal := runStep s

/-- The state whose next command is the CMD write of the `nbits`-bit value w: it stands at index pc of
the host's list (log entry 1). -/
def State.withFetchWord (s : State) (nbits w : Nat) : State :=
  { s with prog := setCommandAt s.prog s.pc (BitVec.ofNat 32 (w % 2 ^ nbits)) }

end Sys2Proof.Machine
end

