-- ==== Sys2Proof/Machine/Assembler.lean ====
section
/-! DEFINITION. The assembler syntax of 30_encoding.md rules R81 and R82, over the characters of a
program text. A tool of the host's: no step of the machine reads it. What R81 leaves open is log
entry 16. -/

namespace Sys2Proof.Machine

/-- A token of a line: a run of characters, in lower case, or a comma. -/
inductive Token where
  | word (cs : List Char)
  | comma
deriving DecidableEq, Repr

/-- R81: "Mnemonics and operand keywords are case-insensitive." -/
def lowerChar (c : Char) : Char :=
  if 65 ≤ c.toNat ∧ c.toNat ≤ 90 then Char.ofNat (c.toNat + 32) else c

/-- Space, tab and carriage return separate tokens (DESIGN CHOICE, log entry 16). -/
def isBlankChar (c : Char) : Bool := c.toNat = 32 || c.toNat = 9 || c.toNat = 13

/-- The token that the characters collected so far make. -/
def flushToken (acc : List Char) : List Token :=
  match acc with
  | [] => []
  | c :: cs => [.word (c :: cs).reverse]

/-- The tokens of a line; `;` begins a comment that runs to its end (R81). -/
def tokensFrom : List Char → List Char → List Token
  | acc, [] => flushToken acc
  | acc, c :: cs =>
    if c = ';' then flushToken acc
    else if c = ',' then flushToken acc ++ .comma :: tokensFrom [] cs
    else if isBlankChar c then flushToken acc ++ tokensFrom [] cs
    else tokensFrom (lowerChar c :: acc) cs

/-- A decimal digit's value. -/
def decimalValue (c : Char) : Option Nat :=
  if 48 ≤ c.toNat ∧ c.toNat ≤ 57 then some (c.toNat - 48) else none

/-- A hex digit's value, the letters in lower case. -/
def hexValue (c : Char) : Option Nat :=
  if 97 ≤ c.toNat ∧ c.toNat ≤ 102 then some (c.toNat - 87) else decimalValue c

/-- A decimal numeral, its digits so far standing for `acc`. -/
def numeralFrom : Nat → List Char → Option Nat
  | acc, [] => some acc
  | acc, c :: cs => (decimalValue c).bind fun d => numeralFrom (acc * 10 + d) cs

/-- A numeral has at least one digit. -/
def numeral : List Char → Option Nat
  | [] => none
  | c :: cs => numeralFrom 0 (c :: cs)

/-- A byte operand: `0xHH`, or decimal 0 to 255 (R81). -/
def byteOperand (cs : List Char) : Option Byte :=
  match cs with
  | ['0', 'x', h, l] =>
    (hexValue h).bind fun a => (hexValue l).map fun b => BitVec.ofNat 8 (a * 16 + b)
  | _ => (numeral cs).bind fun n => if n ≤ 255 then some (BitVec.ofNat 8 n) else none

/-- The width operand of DECW: exactly the six admitted widths (R81). -/
def widthOperand (cs : List Char) : Option Width :=
  match numeral cs with
  | some 8 => some .w8
  | some 12 => some .w12
  | some 13 => some .w13
  | some 14 => some .w14
  | some 15 => some .w15
  | some 16 => some .w16
  | _ => none

/-- `acc`, `gyr` or `mag` (R81). -/
def dieOperand (cs : List Char) : Option Die :=
  if cs = ['a', 'c', 'c'] then some .accelerometer
  else if cs = ['g', 'y', 'r'] then some .gyroscope
  else if cs = ['m', 'a', 'g'] then some .magnetometer
  else none

/-- `x`, `y` or `z` for every die, `t` for `acc` and `rhall` for `mag` (R81). -/
def channelOperand (d : Die) (cs : List Char) : Option Channel :=
  if cs = ['x'] then some .x
  else if cs = ['y'] then some .y
  else if cs = ['z'] then some .z
  else match d with
    | .accelerometer => if cs = ['t'] then some .aux else none
    | .gyroscope => none
    | .magnetometer => if cs = ['r', 'h', 'a', 'l', 'l'] then some .aux else none

/-- The mnemonics with no operand (R81). -/
def plainMnemonics : List (List Char × Instr) :=
  [(['n', 'o', 'p'], .nop), (['f', 'a', 'i', 'l'], .fail), (['o', 'u', 't', 'd'], .outd),
   (['o', 'u', 't', 'h'], .outh), (['p', 'a', 'c', 'k'], .pack), (['p', 'c', 'l', 'r'], .pclr)]

/-- A line of one operand (R81). -/
def assembleOne (m a : List Char) : Option (List Instr) :=
  if m = ['l', 'd', 'm'] then (byteOperand a).map fun b => [.ldm b]
  else if m = ['l', 'd', 'l'] then (byteOperand a).map fun b => [.ldl b]
  else if m = ['d', 'e', 'c', 'w'] then (widthOperand a).map fun n => [.decw n]
  else none

/-- A line of two operands: DECC, or the pseudo-instruction LDR (R81, R82). -/
def assembleTwo (m a b : List Char) : Option (List Instr) :=
  if m = ['d', 'e', 'c', 'c'] then
    (dieOperand a).bind fun d => (channelOperand d b).map fun c => [.decc d c]
  else if m = ['l', 'd', 'r'] then
    (byteOperand a).bind fun x => (byteOperand b).map fun y => (Pseudo.ldr x y).expand
  else none

/-- READ with its operands (R82); a form that R82 does not list is rejected. -/
def assembleRead (a b m : List Char) (l : Option (List Char)) : Option (List Instr) :=
  (dieOperand a).bind fun d => (channelOperand d b).bind fun c => (byteOperand m).bind fun x =>
    match l with
    | none =>
      if d = .accelerometer ∧ c = .aux then some (Pseudo.readTemp x).expand else none
    | some l => (byteOperand l).bind fun y =>
      if (Pseudo.read2 d c x y).wellFormed then some (Pseudo.read2 d c x y).expand else none

/-- The commands of one line; none where the assembler rejects it (R81). -/
def assembleTokens : List Token → Option (List Instr)
  | [] => some []
  | [.word m] =>
    if m = ['m', 'i', 's', 's'] then some Pseudo.miss.expand
    else (plainMnemonics.lookup m).map fun i => [i]
  | [.word m, .word a] => assembleOne m a
  | [.word m, .word a, .comma, .word b] => assembleTwo m a b
  | [.word m, .word a, .comma, .word b, .comma, .word x] =>
    if m = ['r', 'e', 'a', 'd'] then assembleRead a b x none else none
  | [.word m, .word a, .comma, .word b, .comma, .word x, .comma, .word y] =>
    if m = ['r', 'e', 'a', 'd'] then assembleRead a b x (some y) else none
  | _ => none

/-- The commands of one line of text. -/
def assembleLine (line : List Char) : Option (List Instr) := assembleTokens (tokensFrom [] line)

/-- The commands of a program text given as its lines: one command a line (R81). -/
def assemble : List (List Char) → Option (List Instr)
  | [] => some []
  | l :: ls => (assembleLine l).bind fun is => (assemble ls).map fun js => is ++ js

/-- The words of a program text (R81, R83). -/
def assembleWords (lines : List (List Char)) : Option (List Word) :=
  (assemble lines).map (·.map encode)

/-! ### The canonical text of a command, in the spelling of R81 -/

/-- The lower-case hex digit of a value below 16. -/
def hexChar (d : Nat) : Char := if d < 10 then Char.ofNat (48 + d) else Char.ofNat (87 + d)

/-- A byte as `0xHH`. -/
def byteText (b : Byte) : List Char := ['0', 'x', hexChar (b.toNat / 16), hexChar (b.toNat % 16)]

/-- The width operand of DECW. -/
def widthText : Width → List Char
  | .w8 => ['8']
  | .w12 => ['1', '2']
  | .w13 => ['1', '3']
  | .w14 => ['1', '4']
  | .w15 => ['1', '5']
  | .w16 => ['1', '6']

/-- The die operand of DECC. -/
def dieText : Die → List Char
  | .accelerometer => ['a', 'c', 'c']
  | .gyroscope => ['g', 'y', 'r']
  | .magnetometer => ['m', 'a', 'g']

/-- The channel operand of DECC; the gyroscope has no fourth name. -/
def channelText : Die → Channel → List Char
  | _, .x => ['x']
  | _, .y => ['y']
  | _, .z => ['z']
  | .accelerometer, .aux => ['t']
  | .gyroscope, .aux => []
  | .magnetometer, .aux => ['r', 'h', 'a', 'l', 'l']

/-- The line that stands for a command (R81). -/
def asmText : Instr → List Char
  | .nop => ['N', 'O', 'P']
  | .ldm b => ['L', 'D', 'M', ' '] ++ byteText b
  | .ldl b => ['L', 'D', 'L', ' '] ++ byteText b
  | .decw n => ['D', 'E', 'C', 'W', ' '] ++ widthText n
  | .decc d c => ['D', 'E', 'C', 'C', ' '] ++ dieText d ++ [',', ' '] ++ channelText d c
  | .fail => ['F', 'A', 'I', 'L']
  | .outd => ['O', 'U', 'T', 'D']
  | .outh => ['O', 'U', 'T', 'H']
  | .pack => ['P', 'A', 'C', 'K']
  | .pclr => ['P', 'C', 'L', 'R']

end Sys2Proof.Machine
end

