-- ==== Sys2Proof/Machine/HostContract.lean ====
section
/-! DEFINITION. The host's side of the contract (60_exceptions.md rules R215 to R221), as command lists:
what `readChannels` and `packChannels` submit. R219 and R220 are "for information": 00_scope.md rule
R5(e) puts them outside the block. -/

namespace Sys2Proof.Machine

/-- What the host's bus transaction for a channel returned: the channel's bytes, MSB register first
(R221; the second is not used at width 8), or CommFailure (R218). -/
inductive BusResult where
  | ok (m l : Byte)
  | commFailure
deriving DecidableEq, Repr

/-- `order(die)`, the fixed per-die order (10_state.md rule R35, R216). -/
def dieOrder : Die → List Channel
  | .accelerometer => [.x, .y, .z, .aux]
  | .gyroscope => [.x, .y, .z]
  | .magnetometer => [.x, .y, .z, .aux]

/-- The commands that make one channel's reading (R216, R218): the loads and DECC, or FAIL. -/
def readingCommands (d : Die) (c : Channel) : BusResult → List Instr
  | .ok m l =>
    match layoutWidth d c with
    | some .w8 => [.ldm m, .decc d c]
    | some .w12 | some .w13 | some .w14 | some .w15 | some .w16 | none => [.ldm m, .ldl l, .decc d c]
  | .commFailure => [.fail]

/-- `readChannels(hexMode)` for one die (R216). -/
def readChannels (hexMode : Bool) (d : Die) (bus : Channel → BusResult) : List Instr :=
  (dieOrder d).flatMap fun c => readingCommands d c (bus c) ++ [if hexMode then .outh else .outd]

/-- `packChannels(buffer)` for one die (R217); the host then reads PIDX. -/
def packChannels (d : Die) (bus : Channel → BusResult) : List Instr :=
  .pclr :: (dieOrder d).flatMap fun c => readingCommands d c (bus c) ++ [.pack]

/-- How many bytes the buffer must hold for `packChannels` (R217). -/
def packLength (d : Die) : Nat := 2 * (dieOrder d).length

/-- A command list as the values the host writes to CMD (R37). -/
def commandList (is : List Instr) : List PortValue := is.map cmdWrite

/-- The ChannelReader's legal register range of a die, first and last address (R219). -/
def registerWindow : Die → Nat × Nat
  | .accelerometer => (0x00, 0x3F)
  | .gyroscope => (0x00, 0x3F)
  | .magnetometer => (0x40, 0x52)

/-- The ChannelReader's check of a register address; where it fails the host issues no command (R219). -/
def registerAddressLegal (d : Die) (a : Nat) : Bool :=
  decide ((registerWindow d).1 ≤ a) && decide (a ≤ (registerWindow d).2)

/-- The status of one register write (R219). -/
inductive WriteStatus where
  | ok
  | badCommand
  | commFailure
deriving DecidableEq, Repr

/-- "Any failure" (R220): a configuration failed if one of its writes did. -/
def configurationFailed (ws : List WriteStatus) : Bool := ws.any fun w => decide (w ≠ .ok)

end Sys2Proof.Machine
end

