-- ==== Sys2Proof/Machine/Port.lean ====
section
/-! DEFINITION. The host register port (10_state.md rules R36 to R43). -/

namespace Sys2Proof.Machine

/-- The six registers of the port (R36). -/
inductive PortReg where
  | cmd
  | result
  | reading
  | pidx
  | fault
  | raw
deriving DecidableEq, Repr

/-- The offsets of R36; no register at any other, so an unaligned offset has none. -/
def portRegAt : Nat → Option PortReg
  | 0x00 => some .cmd
  | 0x04 => some .result
  | 0x08 => some .reading
  | 0x0C => some .pidx
  | 0x10 => some .fault
  | 0x14 => some .raw
  | _ => none

/-- The register that an access of `width` bytes at an address of the host's reaches: BLOCK_BASE plus
an offset, 32-bit accesses only (R36, R43). -/
def portDecode (addr width : Nat) : Option PortReg :=
  if width = 4 ∧ Config.blockBase ≤ addr then portRegAt (addr - Config.blockBase) else none

/-- READING (R39): `{0, R_MSB, R_LSB, 0, RSTAT}`. -/
def readingView (s : State) : PortValue :=
  (((0#8 ++ s.rMsb : BitVec 16) ++ s.rLsb : BitVec 24) ++ (0#6 ++ s.rstat.code : BitVec 8) : BitVec 32)

/-- FAULT (R41): `{FAULT_CMD, 0, HALTED, 0, FAULT_CODE}`. -/
def faultView (s : State) : PortValue :=
  ((s.faultCmd ++ (0#7 ++ BitVec.ofBool s.halted : BitVec 8) : BitVec 24) ++
    (0#5 ++ s.faultCode.code : BitVec 8) : BitVec 32)

/-- RAW (R42): `{0, MSB_V, LSB_V, RAW_MSB, RAW_LSB}`. -/
def rawView (s : State) : PortValue :=
  ((0#14 ++ (BitVec.ofBool s.msbV ++ BitVec.ofBool s.lsbV : BitVec 2) : BitVec 16) ++
    (s.rawMsb ++ s.rawLsb : BitVec 16) : BitVec 32)

/-- What a read of a register returns (R37 to R42). -/
def portView (r : PortReg) (s : State) : PortValue :=
  match r with
  | .cmd => 0#32
  | .result => s.result
  | .reading => readingView s
  | .pidx => s.pidx.setWidth 32
  | .fault => faultView s
  | .raw => rawView s

/-- What the host's read gives: the value and the state after it, or a refusal (R43). -/
inductive PortAnswer where
  | value (v : PortValue) (s : State)
  | refused (r : Refusal)
deriving DecidableEq, Repr

/-- A read by the host (R43): no side effect, while halted too. -/
def portRead (addr width : Nat) (s : State) : PortAnswer :=
  match portDecode addr width with
  | some r => .value (portView r s) s
  | none => .refused .portAccess

/-- A write by the host (R37, R43): CMD executes a command, the others ignore it. -/
def portWrite (addr width : Nat) (v : PortValue) (s : State) : Result :=
  match portDecode addr width with
  | some .cmd => submit v s
  | some .result => .next s
  | some .reading => .next s
  | some .pidx => .next s
  | some .fault => .next s
  | some .raw => .next s
  | none => .refused .portAccess

end Sys2Proof.Machine
end

