-- ==== Sys2Proof/Safety.lean ====
section
/-! DEFINITION. The invariant of the block and the ends of a run (10_state.md rules R24 to R27, R48;
60_exceptions.md rule R222). -/

namespace Sys2Proof.Machine

/-- What every command preserves. The first five fields but `faultCmdClear` are R48; `faultCmdClear` is
R41; the last four are the model's own: what R21 and R47 imply of registers nothing has written, the
pack buffer's canonical form, and R51's bound on the indices written. -/
structure State.Inv (s : State) : Prop where
  /-- HALTED = 1 if and only if FAULT_CODE ≠ 0. -/
  haltedIff : s.halted = true ↔ s.faultCode ≠ .none
  /-- FAULT_CMD is 0 when FAULT_CODE = 0. -/
  faultCmdClear : s.faultCode = .none → s.faultCmd = 0#16
  /-- A Failed reading holds zeros. -/
  failedZero : s.rstat = .failed → s.result = 0#32 ∧ s.rMsb = 0#8 ∧ s.rLsb = 0#8
  /-- An Ok reading is in the 16-bit range. -/
  okRange : s.rstat = .ok → -32768 ≤ s.result.toInt ∧ s.result.toInt ≤ 32767
  /-- PIDX is even. -/
  pidxEven : s.pidx.toNat % 2 = 0
  /-- PIDX ≤ BUF_LEN. -/
  pidxLe : s.pidx.toNat ≤ s.bufLen.toNat
  /-- With no reading the reading's registers are as after reset. -/
  noneZero : s.rstat = .none → s.result = 0#32 ∧ s.rMsb = 0#8 ∧ s.rLsb = 0#8
  /-- A raw byte not written since reset is 0. -/
  rawZero : (s.msbV = false → s.rawMsb = 0#8) ∧ (s.lsbV = false → s.rawLsb = 0#8)
  /-- The pack buffer is in canonical form. -/
  bufWf : Memory.wf s.packBuf = true
  /-- Only indices of the buffer have been written. -/
  bufBelow : Memory.below s.bufLen.toNat s.packBuf = true

/-- A run has ended well: `pc = L` and HALTED = 0 (R222). -/
def State.endsWell (s : State) : Bool := !s.halted && decide (s.pc = s.prog.length)

/-- A run has ended badly: HALTED = 1 (R222). -/
def State.endsBadly (s : State) : Bool := s.halted

/-- The CMD write of v takes ILLEGAL_CMD in s: fault entry as R205 writes it, with the low half of the
write in FAULT_CMD. -/
def State.takesIllegal (s : State) (v : PortValue) : Prop :=
  submit v s =
    .next { s with faultCode := .illegalCmd, faultCmd := v.extractLsb' 0 16, halted := true }

/-- Every CMD write with bits [31:16] zero and this OP, in a running block, takes ILLEGAL_CMD where `bad`
holds of its fields F and I. -/
def illegalWhere (op : BitVec 4) (bad : BitVec 4 → Byte → Prop) : Prop :=
  ∀ (v : PortValue) (s : State), s.halted = false → v.extractLsb' 16 16 = 0#16 →
    v.extractLsb' 12 4 = op → bad (v.extractLsb' 8 4) (v.extractLsb' 0 8) → s.takesIllegal v

/-- A command list executed as commands, in order, stopping where one gives no next state. -/
def execList : List Instr → State → Result
  | [], s => .next s
  | i :: is, s =>
    match exec i s with
    | .next t => execList is t
    | .fault r => .fault r
    | .refused r => .refused r

end Sys2Proof.Machine
end

