-- ==== Sys2Proof/Certificates/Slice0/Obligations.lean ====
section
/-! DEFINITION. The statements for the provers. Each docstring names the rule it formalises. -/

open Sys2Proof Sys2Proof.Machine

/-! ### Encoding -/

/-- R80, R70 to R77: a word decodes to a command exactly when it is the encoding of that well-formed
command, so that every word is one command or none, with every operand at every value. -/
def Obligations.DecodeAcceptsExactlyEncodings : Prop :=
  ∀ (w : Word) (i : Instr), decodeWord w = .ok i ↔ i.wellFormed = true ∧ encode i = w

/-- R64, R37: the byte image of a command list is each word's high byte, then its low byte, and decodes
to its first command and the rest; the CMD write of a command decodes to it. -/
def Obligations.CommandImagesRoundTrip : Prop :=
  ∀ (i : Instr) (is : List Instr), i.wellFormed = true →
    encodeBytes (i :: is) =
      (encode i).extractLsb' 8 8 :: (encode i).extractLsb' 0 8 :: encodeBytes is ∧
    decodeBytes (encodeBytes (i :: is)) = .ok (i, encodeBytes is) ∧
    decodeCmd (cmdWrite i) = .ok i

/-- R80: the legal words number 535. -/
def Obligations.LegalWordsNumber535 : Prop :=
  ∃ l : List Word, l.Nodup ∧ l.length = 535 ∧ ∀ w : Word, (∃ i, decodeWord w = .ok i) ↔ w ∈ l

/-- R83 and R73: words written out from the tables decode to their commands. -/
def Obligations.ReferenceWordsDecode : Prop :=
  decodeWord 0x0000#16 = .ok .nop ∧ decodeWord 0x10A5#16 = .ok (.ldm 0xA5#8) ∧
  decodeWord 0x20F0#16 = .ok (.ldl 0xF0#8) ∧ decodeWord 0x3500#16 = .ok (.decw .w13) ∧
  decodeWord 0x3800#16 = .ok (.decw .w16) ∧
  decodeWord 0x4300#16 = .ok (.decc .accelerometer .aux) ∧
  decodeWord 0x4600#16 = .ok (.decc .gyroscope .z) ∧
  decodeWord 0x4900#16 = .ok (.decc .magnetometer .y) ∧
  decodeWord 0x5000#16 = .ok .fail ∧ decodeWord 0x6000#16 = .ok .outd ∧
  decodeWord 0x7000#16 = .ok .outh ∧ decodeWord 0x8000#16 = .ok .pack ∧
  decodeWord 0x9000#16 = .ok .pclr

/-- R71: a CMD write with bits [31:16] not zero takes ILLEGAL_CMD, whatever its low half holds. -/
def Obligations.UpperCommandBitsAreIllegal : Prop :=
  ∀ (v : PortValue) (s : State), s.halted = false → v.extractLsb' 16 16 ≠ 0#16 → s.takesIllegal v

/-- R74: OP 0xA to 0xF. -/
def Obligations.ReservedOpcodesAreIllegal : Prop :=
  ∀ op : BitVec 4, 0xA ≤ op.toNat → illegalWhere op (fun _ _ => True)

/-- R75: I must be 0 for eight of the commands, F for eight of them. -/
def Obligations.MustBeZeroFieldsAreIllegal : Prop :=
  (∀ op ∈ [0x0#4, 0x3#4, 0x4#4, 0x5#4, 0x6#4, 0x7#4, 0x8#4, 0x9#4],
    illegalWhere op (fun _ i => i ≠ 0#8)) ∧
  (∀ op ∈ [0x0#4, 0x1#4, 0x2#4, 0x5#4, 0x6#4, 0x7#4, 0x8#4, 0x9#4],
    illegalWhere op (fun f _ => f ≠ 0#4))

/-- R76: DECW's six legal width codes select n = F + 8, and the ten others take ILLEGAL_CMD. -/
def Obligations.WidthCodesOfDecw : Prop :=
  (∀ w : Word, w.extractLsb' 12 4 = 0x3#4 → w.extractLsb' 0 8 = 0#8 →
    w.extractLsb' 8 4 ∈ [0x0#4, 0x4#4, 0x5#4, 0x6#4, 0x7#4, 0x8#4] →
    ∃ n, decodeWord w = .ok (.decw n) ∧ n.bits = (w.extractLsb' 8 4).toNat + 8) ∧
  illegalWhere 0x3#4 (fun f _ => f ∉ [0x0#4, 0x4#4, 0x5#4, 0x6#4, 0x7#4, 0x8#4])

/-- R77: DECC's eleven legal values of F name the die in F[3:2] and the channel in F[1:0], and the five
others take ILLEGAL_CMD. -/
def Obligations.ChannelCodesOfDecc : Prop :=
  (∀ w : Word, w.extractLsb' 12 4 = 0x4#4 → w.extractLsb' 0 8 = 0#8 →
    w.extractLsb' 8 4 ∉ [0x7#4, 0xC#4, 0xD#4, 0xE#4, 0xF#4] →
    ∃ d c, decodeWord w = .ok (.decc d c) ∧ dieCode d = w.extractLsb' 10 2 ∧
      channelCode c = w.extractLsb' 8 2) ∧
  illegalWhere 0x4#4 (fun f _ => f ∈ [0x7#4, 0xC#4, 0xD#4, 0xE#4, 0xF#4])

/-- R33, R34, R35: the eleven rows of the layout table, with lsbShift and the F field of DECC, and the
one pair of names that is no row. -/
def Obligations.LayoutTableRows : Prop :=
  (∀ r ∈ [(Die.accelerometer, Channel.x, 12, 4, 0x0#4), (.accelerometer, .y, 12, 4, 0x1#4),
      (.accelerometer, .z, 12, 4, 0x2#4), (.accelerometer, .aux, 8, 8, 0x3#4),
      (.gyroscope, .x, 16, 0, 0x4#4), (.gyroscope, .y, 16, 0, 0x5#4), (.gyroscope, .z, 16, 0, 0x6#4),
      (.magnetometer, .x, 13, 3, 0x8#4), (.magnetometer, .y, 13, 3, 0x9#4),
      (.magnetometer, .z, 15, 1, 0xA#4), (.magnetometer, .aux, 14, 2, 0xB#4)],
    channelLayout r.1 r.2.1 = some ⟨r.2.2.1, r.2.2.2.1, r.2.2.1 - 1⟩ ∧
    (encode (.decc r.1 r.2.1)).extractLsb' 8 4 = r.2.2.2.2) ∧
  channelLayout .gyroscope .aux = none

/-! ### The step -/

/-- R29, R78: a step of a running block executes the command that the host's next CMD write decodes to,
or takes ILLEGAL_CMD where it decodes to none. -/
def Obligations.StepRunsDecodedCommand : Prop :=
  ∀ (s : State) (v : PortValue), s.halted = false → s.prog[s.pc]? = some v →
    (∀ i, decodeCmd v = .ok i → step s = exec i s) ∧
    (∀ r, decodeCmd v = .illegal r → step s =
      .next { s with faultCode := .illegalCmd, faultCmd := v.extractLsb' 0 16, halted := true })

/-- The model's own convention (log entry 1): a word placed by `withFetchWord` is the command that the
next step executes, and placing it changes the command list alone. -/
def Obligations.PlacedWordRunsNext : Prop :=
  ∀ (s : State) (i : Instr), i.wellFormed = true →
    { s.withFetchWord 16 (encode i).toNat with prog := s.prog } = s ∧
    decodeTableWord 16 (encode i).toNat = some i ∧
    (s.halted = false →
      step (s.withFetchWord 16 (encode i).toNat) = exec i (s.withFetchWord 16 (encode i).toNat))

/-- R206, R222 (and log entries 6 and 7, the names of the two stops): a step answers a next state exactly
when the block runs and the command list is not over; it stops with `halted` exactly when HALTED = 1,
and with `noCommand` at the end of the list. -/
def Obligations.StepStopsOnlyHaltedOrOver : Prop :=
  ∀ s : State,
    ((∃ t, step s = .next t) ↔ s.halted = false ∧ s.pc < s.prog.length) ∧
    ((∃ f, step s = .fault f) ↔ s.halted = true) ∧
    (s.halted = true → step s = .fault .halted) ∧
    ((∃ r, step s = .refused r) ↔ s.halted = false ∧ s.prog.length ≤ s.pc) ∧
    (s.halted = false → s.prog.length ≤ s.pc → step s = .refused .noCommand)

/-- R206: while HALTED = 1 every CMD write is ignored and changes no state, whatever it holds and
whichever command it is; register reads still work; a run that is there has failed; there is no step. -/
def Obligations.HaltedBlockIgnoresCommands : Prop :=
  ∀ s : State, s.halted = true →
    (∀ v, submit v s = .next s) ∧ (∀ i, exec i s = .next s) ∧
    (∀ v, portWrite Config.blockBase 4 v s = .next s) ∧
    (∀ addr r, portDecode addr 4 = some r → portRead addr 4 s = .value (portView r s) s) ∧
    s.endsBadly = true ∧ s.endsWell = false ∧ ∀ t, step s ≠ .next t

/-- R29, R205: pc goes up by one where the command completes and stays at the faulting command's index
where it faults; it is 0 after reset. -/
def Obligations.PcAdvancesOrStaysOnFault : Prop :=
  State.reset.pc = 0 ∧
  ∀ s t : State, step s = .next t →
    (t.halted = false ∧ t.pc = s.pc + 1) ∨ (t.halted = true ∧ t.pc = s.pc)

/-! ### Raw input -/

/-- R100: NOP. -/
def Obligations.NopOnlyAdvancesPc : Prop :=
  encode .nop = 0x0000#16 ∧
  (∀ s : State, s.halted = false → exec .nop s = .next { s with pc := s.pc + 1 }) ∧
  (∀ s : State, s.halted = true → exec .nop s = .next s) ∧
  illegalWhere 0x0#4 (fun f i => f ≠ 0#4 ∨ i ≠ 0#8)

/-- R101: LDM, for every byte; RAW_LSB, LSB_V and the reading keep their values. -/
def Obligations.LdmLoadsRawMsb : Prop :=
  (∀ b : Byte, encode (.ldm b) = 0x1000#16 ||| b.setWidth 16) ∧
  (∀ (b : Byte) (s : State), s.halted = false →
    exec (.ldm b) s = .next { s with rawMsb := b, msbV := true, pc := s.pc + 1 }) ∧
  illegalWhere 0x1#4 (fun f _ => f ≠ 0#4)

/-- R102: LDL, for every byte; RAW_MSB, MSB_V and the reading keep their values. -/
def Obligations.LdlLoadsRawLsb : Prop :=
  (∀ b : Byte, encode (.ldl b) = 0x2000#16 ||| b.setWidth 16) ∧
  (∀ (b : Byte) (s : State), s.halted = false →
    exec (.ldl b) s = .next { s with rawLsb := b, lsbV := true, pc := s.pc + 1 }) ∧
  illegalWhere 0x2#4 (fun f _ => f ≠ 0#4)

/-- R103: LDM and LDL come in either order; of two loads of one register the second is kept. -/
def Obligations.LoadsAreIndependent : Prop :=
  ∀ (a b : Byte) (s : State), s.halted = false →
    execList [.ldm a, .ldl b] s = execList [.ldl b, .ldm a] s ∧
    execList [.ldm a, .ldl b] s =
      .next { s with rawMsb := a, msbV := true, rawLsb := b, lsbV := true, pc := s.pc + 2 } ∧
    execList [.ldm a, .ldm b] s = .next { s with rawMsb := b, msbV := true, pc := s.pc + 2 } ∧
    execList [.ldl a, .ldl b] s = .next { s with rawLsb := b, lsbV := true, pc := s.pc + 2 }

/-- R23: a CMD write sets MSB_V only as LDM and LSB_V only as LDL, and clears neither; reset clears both;
a decode of a byte whose valid bit is 0 takes RAW_UNWRITTEN. -/
def Obligations.ValidBitsRecordLoads : Prop :=
  State.reset.msbV = false ∧ State.reset.lsbV = false ∧
  (∀ (v : PortValue) (s t : State), submit v s = .next t →
    (t.msbV = s.msbV ∨ (t.msbV = true ∧ ∃ b, decodeCmd v = .ok (.ldm b))) ∧
    (t.lsbV = s.lsbV ∨ (t.lsbV = true ∧ ∃ b, decodeCmd v = .ok (.ldl b)))) ∧
  (∀ (b : Byte) (s t : State), s.halted = false → exec (.ldm b) s = .next t → t.msbV = true) ∧
  (∀ (b : Byte) (s t : State), s.halted = false → exec (.ldl b) s = .next t → t.lsbV = true) ∧
  (∀ (i : Instr) (n : Width) (s : State),
    (i = .decw n ∨ ∃ d c, i = .decc d c ∧ layoutWidth d c = some n) → s.halted = false →
    s.msbV = false ∨ (8 < n.bits ∧ s.lsbV = false) →
    ∃ t, exec i s = .next t ∧ t.faultCode = .rawUnwritten ∧ t.halted = true)

/-! ### The codec -/

/-- R121: the combined value is `msb·2^(8−s) + floor(lsb / 2^s)` with s = 16 − n; it occupies n bits, and
at n = 8 it is the MSB byte. -/
def Obligations.CombinePlacesMsbAboveLsb : Prop :=
  ∀ (n : Width) (m l : Byte),
    combine n m l = m.toNat * 2 ^ (8 - (16 - n.bits)) + l.toNat / 2 ^ (16 - n.bits) ∧
    combine n m l < 2 ^ n.bits ∧ combine .w8 m l = m.toNat

/-- R122: below 16 bits the value is `(raw ^ (1 << p)) − (1 << p)` with p = n − 1, and it lies in
[−2^(n−1), 2^(n−1)−1], so that the 32-bit RESULT holds it without wrapping. -/
def Obligations.SignExtensionFlipsAndSubtracts : Prop :=
  ∀ (n : Width) (m l : Byte), n ≠ .w16 →
    codec n m l = ((combine n m l ^^^ (1 <<< (n.bits - 1)) : Nat) : Int) - 2 ^ (n.bits - 1) ∧
    -(2 ^ (n.bits - 1)) ≤ codec n m l ∧ codec n m l ≤ 2 ^ (n.bits - 1) - 1 ∧
    (BitVec.ofInt 32 (codec n m l)).toInt = codec n m l

/-- R123: at 16 bits the RESULT is the sign extension of the pair, the big-endian signed 16-bit reading
of `(msb << 8) | lsb`. -/
def Obligations.SixteenBitReadIsDirect : Prop :=
  ∀ m l : Byte,
    BitVec.ofInt 32 (codec .w16 m l) = (m ++ l : BitVec 16).signExtend 32 ∧
    codec .w16 m l = (BitVec.ofNat 16 ((m.toNat <<< 8) ||| l.toNat)).toInt

/-- R124: at every width the value is `raw − 2^n·raw[n−1]`, the signed reading of raw as an n-bit
pattern, and the general formula gives it at 16 bits too. -/
def Obligations.CodecIsTwosComplement : Prop :=
  ∀ (n : Width) (m l : Byte),
    codec n m l = (combine n m l : Int) - (if (combine n m l).testBit (n.bits - 1) then 2 ^ n.bits else 0) ∧
    codec n m l = (BitVec.ofNat n.bits (combine n m l)).toInt ∧
    BitVec.ofInt 32 (codec n m l) = (BitVec.ofNat n.bits (combine n m l)).signExtend 32 ∧
    codec n m l = signExtend n (combine n m l)

/-- R131: `pack_n` then decode is the identity on every value of n bits, whatever the low s bits of the LSB
are (at n = 8, whatever the LSB is); decode then `pack_n` returns the MSB, and the LSB with its low s
bits cleared. -/
def Obligations.CodecRoundTrips : Prop :=
  (∀ (n : Width) (v : Int), -(2 ^ (n.bits - 1)) ≤ v → v ≤ 2 ^ (n.bits - 1) - 1 →
    ∀ l : Byte, l.toNat / 2 ^ (16 - n.bits) = (packRaw n v).2.toNat / 2 ^ (16 - n.bits) →
    codec n (packRaw n v).1 l = v) ∧
  (∀ (n : Width) (m l : Byte),
    (packRaw n (codec n m l)).1 = m ∧
    (packRaw n (codec n m l)).2.toNat = l.toNat / 2 ^ (16 - n.bits) * 2 ^ (16 - n.bits))

/-- R132: the codec rises strictly with raw in each half of its range, and its sign is bit 7 of the MSB. -/
def Obligations.CodecMonotoneAndSigned : Prop :=
  ∀ (n : Width) (m l m' l' : Byte),
    (codec n m l < 0 ↔ m.msb = true) ∧
    (combine n m l < combine n m' l' →
      (combine n m' l' < 2 ^ (n.bits - 1) ∨ 2 ^ (n.bits - 1) ≤ combine n m l) →
      codec n m l < codec n m' l') ∧
    (combine n m l = 2 ^ (n.bits - 1) - 1 → codec n m l = 2 ^ (n.bits - 1) - 1) ∧
    (combine n m l = 2 ^ (n.bits - 1) → codec n m l = -(2 ^ (n.bits - 1)))

/-! ### The reading -/

/-- R128: DECW, for every width. -/
def Obligations.DecwDecodesRawPair : Prop :=
  (∀ n : Width, encode (.decw n) = 0x3000#16 ||| (BitVec.ofNat 16 (n.bits - 8) <<< 8)) ∧
  (∀ (n : Width) (s : State), s.halted = false → s.msbV = true → (8 < n.bits → s.lsbV = true) →
    exec (.decw n) s = .next { s with
      result := BitVec.ofInt 32 (codec n s.rawMsb s.rawLsb), rMsb := s.rawMsb,
      rLsb := if n.bits = 8 then 0x00#8 else s.rawLsb, rstat := .ok, pc := s.pc + 1 }) ∧
  (∀ (n : Width) (s : State), s.halted = false → s.msbV = false ∨ (8 < n.bits ∧ s.lsbV = false) →
    exec (.decw n) s = .next { s with
      faultCode := .rawUnwritten, faultCmd := encode (.decw n), halted := true }) ∧
  illegalWhere 0x3#4 (fun f i => f ∉ [0x0#4, 0x4#4, 0x5#4, 0x6#4, 0x7#4, 0x8#4] ∨ i ≠ 0#8)

/-- R129: DECC, for every row of the layout table: DECW's effect at the row's width, and the same next
state as DECW of that width; RAW_UNWRITTEN as for DECW, with DECC's own word recorded. -/
def Obligations.DeccDecodesWithChannelWidth : Prop :=
  (∀ (d : Die) (c : Channel), encode (.decc d c) =
    0x4000#16 ||| ((dieCode d).setWidth 16 <<< 10) ||| ((channelCode c).setWidth 16 <<< 8)) ∧
  (∀ (d : Die) (c : Channel) (n : Width) (s : State), layoutWidth d c = some n → s.halted = false →
    s.msbV = true → (8 < n.bits → s.lsbV = true) →
    exec (.decc d c) s = exec (.decw n) s ∧
    exec (.decc d c) s = .next { s with
      result := BitVec.ofInt 32 (codec n s.rawMsb s.rawLsb), rMsb := s.rawMsb,
      rLsb := if n.bits = 8 then 0x00#8 else s.rawLsb, rstat := .ok, pc := s.pc + 1 }) ∧
  (∀ (d : Die) (c : Channel) (n : Width) (s : State), layoutWidth d c = some n → s.halted = false →
    s.msbV = false ∨ (8 < n.bits ∧ s.lsbV = false) →
    exec (.decc d c) s = .next { s with
      faultCode := .rawUnwritten, faultCmd := encode (.decc d c), halted := true }) ∧
  illegalWhere 0x4#4 (fun f i =>
    (f.extractLsb' 2 2 = 1#2 ∧ f.extractLsb' 0 2 = 3#2) ∨ f.extractLsb' 2 2 = 3#2 ∨ i ≠ 0#8)

/-- R129, R77 (and log entry 8): the one DECC of two names that is no row of the table takes ILLEGAL_CMD
with its own word, 0x4700. -/
def Obligations.DeccOfNoRowIsIllegal : Prop :=
  ∀ s : State, s.halted = false →
    exec (.decc .gyroscope .aux) s =
      .next { s with faultCode := .illegalCmd, faultCmd := 0x4700#16, halted := true } ∧
    submit 0x00004700#32 s = exec (.decc .gyroscope .aux) s

/-- R127: a decode of width 8 takes its value from RAW_MSB alone: whatever RAW_LSB and LSB_V hold, it
completes with the sign-extended MSB byte and records R_LSB = 0x00. -/
def Obligations.EightBitDecodeIgnoresLsb : Prop :=
  ∀ (i : Instr) (s : State) (b : Byte) (v : Bool),
    i = .decw .w8 ∨ i = .decc .accelerometer .aux → s.halted = false → s.msbV = true →
    exec i { s with rawLsb := b, lsbV := v } = .next { s with
      rawLsb := b, lsbV := v, result := s.rawMsb.signExtend 32, rMsb := s.rawMsb, rLsb := 0x00#8,
      rstat := .ok, pc := s.pc + 1 }

/-- R130: FAIL. -/
def Obligations.FailRecordsFailedReading : Prop :=
  encode .fail = 0x5000#16 ∧
  (∀ s : State, s.halted = false → exec .fail s = .next { s with
    rstat := .failed, result := 0#32, rMsb := 0x00#8, rLsb := 0x00#8, pc := s.pc + 1 }) ∧
  illegalWhere 0x5#4 (fun f i => f ≠ 0#4 ∨ i ≠ 0#8)

/-! ### The formatter -/

/-- R142: `dec(v)`: a minus sign for negatives; the digits are ASCII 0x30 to 0x39, stand for the value,
have no leading zero, and are `0` for zero; 1 to 6 characters in the 16-bit range. -/
def Obligations.DecimalTokenOfInteger : Prop :=
  (∀ v : Int, dec v = if v < 0 then 0x2D#8 :: digits (-v).toNat else digits v.toNat) ∧
  (∀ m : Nat,
    (∀ b ∈ digits m, 0x30 ≤ b.toNat ∧ b.toNat ≤ 0x39) ∧
    (digits m).foldl (fun a b => 10 * a + (b.toNat - 0x30)) 0 = m ∧
    (0 < m → (digits m).head? ≠ some 0x30#8)) ∧
  digits 0 = [0x30#8] ∧
  (∀ v : Int, -32768 ≤ v → v ≤ 32767 → 1 ≤ (dec v).length ∧ (dec v).length ≤ 6)

/-- R143: `hex2(b)`, and the nine characters of the token of an Ok reading; after a decode of width 8 the
second byte is `0x00`. -/
def Obligations.HexTokenOfRawBytes : Prop :=
  (∀ b : Byte, ∃ h l : Byte, hex2 b = [0x30#8, 0x78#8, h, l] ∧
    [0x30#8, 0x31#8, 0x32#8, 0x33#8, 0x34#8, 0x35#8, 0x36#8, 0x37#8, 0x38#8, 0x39#8, 0x61#8, 0x62#8,
      0x63#8, 0x64#8, 0x65#8, 0x66#8][b.toNat / 16]? = some h ∧
    [0x30#8, 0x31#8, 0x32#8, 0x33#8, 0x34#8, 0x35#8, 0x36#8, 0x37#8, 0x38#8, 0x39#8, 0x61#8, 0x62#8,
      0x63#8, 0x64#8, 0x65#8, 0x66#8][b.toNat % 16]? = some l) ∧
  (∀ s : State, s.rstat = .ok → hexToken s = hex2 s.rMsb ++ [0x20#8] ++ hex2 s.rLsb ∧
    (hexToken s).length = 9) ∧
  (∀ (i : Instr) (s t : State), i = .decw .w8 ∨ i = .decc .accelerometer .aux → s.halted = false →
    s.msbV = true → exec i s = .next t →
    hexToken t = hex2 s.rawMsb ++ [0x20#8, 0x30#8, 0x78#8, 0x30#8, 0x30#8])

/-- R144: OUTD. -/
def Obligations.OutdEmitsDecimalUnit : Prop :=
  encode .outd = 0x6000#16 ∧
  (∀ s : State, s.halted = false → s.rstat = .ok → exec .outd s = .next { s with
    out := s.out ++ (dec s.result.toInt ++ [0x2C#8]), pc := s.pc + 1 }) ∧
  (∀ s : State, s.halted = false → s.rstat = .failed → exec .outd s = .next { s with
    out := s.out ++ [0x2D#8, 0x2D#8, 0x2D#8, 0x2D#8, 0x2C#8], pc := s.pc + 1 }) ∧
  (∀ s : State, s.halted = false → s.rstat = .none → exec .outd s = .next { s with
    faultCode := .noReading, faultCmd := 0x6000#16, halted := true }) ∧
  illegalWhere 0x6#4 (fun f i => f ≠ 0#4 ∨ i ≠ 0#8)

/-- R145: OUTH. -/
def Obligations.OuthEmitsHexUnit : Prop :=
  encode .outh = 0x7000#16 ∧
  (∀ s : State, s.halted = false → s.rstat = .ok → exec .outh s = .next { s with
    out := s.out ++ (hex2 s.rMsb ++ [0x20#8] ++ hex2 s.rLsb ++ [0x2C#8]), pc := s.pc + 1 }) ∧
  (∀ s : State, s.halted = false → s.rstat = .failed → exec .outh s = .next { s with
    out := s.out ++ [0x2D#8, 0x2D#8, 0x2D#8, 0x2D#8, 0x2C#8], pc := s.pc + 1 }) ∧
  (∀ s : State, s.halted = false → s.rstat = .none → exec .outh s = .next { s with
    faultCode := .noReading, faultCmd := 0x7000#16, halted := true }) ∧
  illegalWhere 0x7#4 (fun f i => f ≠ 0#4 ∨ i ≠ 0#8)

/-- R55, R140: in a state that meets the invariant, OUTD appends a token of 1 to 6 characters and OUTH one
of 9, or 4 for a Failed reading, none of them a comma, and then a comma. -/
def Obligations.UnitsAreTokensEndedByComma : Prop :=
  ∀ s : State, s.Inv → s.halted = false → s.rstat ≠ .none →
    (∃ t tok, exec .outd s = .next t ∧ t.out = s.out ++ tok ++ [0x2C#8] ∧ 1 ≤ tok.length ∧
      tok.length ≤ 6 ∧ 0x2C#8 ∉ tok) ∧
    (∃ t tok, exec .outh s = .next t ∧ t.out = s.out ++ tok ++ [0x2C#8] ∧
      tok.length = (if s.rstat = .failed then 4 else 9) ∧ 0x2C#8 ∉ tok)

/-- R28, R56: a CMD write only appends to OUT, and only as OUTD or OUTH; OUT is empty after reset. -/
def Obligations.OutIsAppendOnly : Prop :=
  State.reset.out = [] ∧
  ∀ (v : PortValue) (s t : State), submit v s = .next t →
    ∃ u, t.out = s.out ++ u ∧ (u ≠ [] → decodeCmd v = .ok .outd ∨ decodeCmd v = .ok .outh)

/-- R146, R147, R52: PACK with a reading and room writes the high byte of the 16-bit pattern of RESULT at
PIDX and the low byte at PIDX + 1 (two zero bytes for a Failed reading), advances PIDX by 2, and
changes no other byte; without a reading, and then without room, it faults with no effect. -/
def Obligations.PackAppendsBigEndian : Prop :=
  encode .pack = 0x8000#16 ∧
  (∀ s : State, s.halted = false → s.rstat ≠ .none → s.pidx.toNat + 2 ≤ s.bufLen.toNat →
    ∃ t, exec .pack s = .next t ∧
      t = { s with packBuf := t.packBuf, pidx := t.pidx, pc := s.pc + 1 } ∧
      t.pidx.toNat = s.pidx.toNat + 2 ∧
      readBuffer t s.pidx.toNat =
        some (if s.rstat = .failed then 0x00#8 else s.result.extractLsb' 8 8) ∧
      readBuffer t (s.pidx.toNat + 1) =
        some (if s.rstat = .failed then 0x00#8 else s.result.extractLsb' 0 8) ∧
      (∀ a, a ≠ s.pidx.toNat → a ≠ s.pidx.toNat + 1 → readBuffer t a = readBuffer s a)) ∧
  (∀ s : State, s.halted = false → s.rstat = .none → exec .pack s = .next { s with
    faultCode := .noReading, faultCmd := 0x8000#16, halted := true }) ∧
  (∀ s : State, s.halted = false → s.rstat ≠ .none → s.bufLen.toNat < s.pidx.toNat + 2 →
    exec .pack s = .next { s with
      faultCode := .packOverflow, faultCmd := 0x8000#16, halted := true }) ∧
  illegalWhere 0x8#4 (fun f i => f ≠ 0#4 ∨ i ≠ 0#8)

/-- R148: PCLR. -/
def Obligations.PclrClearsIndex : Prop :=
  encode .pclr = 0x9000#16 ∧
  (∀ s : State, s.halted = false → exec .pclr s = .next { s with pidx := 0#16, pc := s.pc + 1 }) ∧
  illegalWhere 0x9#4 (fun f i => f ≠ 0#4 ∨ i ≠ 0#8)

/-- R25, R146: in a state that meets the invariant the two packed bytes of an Ok reading give RESULT back:
its upper half is copies of bit 15. -/
def Obligations.PackedBytesLoseNothing : Prop :=
  ∀ s : State, s.Inv → s.rstat = .ok →
    ((packBytes s).1 ++ (packBytes s).2 : BitVec 16).signExtend 32 = s.result ∧
    s.result = (s.result.extractLsb' 0 16).signExtend 32

/-- R149: after PCLR and k PACKs of a reading that fit the buffer, PIDX is 2k, and the buffer's first 2k
bytes are the reading's two bytes, k times. -/
def Obligations.FinalIndexCountsPacks : Prop :=
  ∀ (k : Nat) (s : State), s.halted = false → s.rstat ≠ .none → 2 * k ≤ s.bufLen.toNat →
    ∃ t, execList (.pclr :: List.replicate k .pack) s = .next t ∧ t.pidx.toNat = 2 * k ∧
      t.halted = false ∧ t.pc = s.pc + k + 1 ∧
      (∀ j < k, readBuffer t (2 * j) = some (packBytes s).1 ∧
        readBuffer t (2 * j + 1) = some (packBytes s).2) ∧
      (∀ a, 2 * k ≤ a → readBuffer t a = readBuffer s a)

/-! ### Frames -/

/-- Frame of NOP, LDM and LDL (R100 to R102): nothing changes but pc, and the loaded register and its
valid bit. -/
def Obligations.RawInputFrame : Prop :=
  ∀ (i : Instr) (s t : State), (i = .nop ∨ (∃ b, i = .ldm b) ∨ ∃ b, i = .ldl b) →
    exec i s = .next t →
    ((∀ b, i ≠ .ldm b) → t.rawMsb = s.rawMsb ∧ t.msbV = s.msbV) ∧
    ((∀ b, i ≠ .ldl b) → t.rawLsb = s.rawLsb ∧ t.lsbV = s.lsbV) ∧
    t.rstat = s.rstat ∧ t.result = s.result ∧ t.rMsb = s.rMsb ∧ t.rLsb = s.rLsb ∧
    t.pidx = s.pidx ∧ t.faultCode = s.faultCode ∧ t.faultCmd = s.faultCmd ∧ t.halted = s.halted ∧
    t.out = s.out ∧ t.bufLen = s.bufLen ∧ t.prog = s.prog ∧
    ∀ a, readBuffer t a = readBuffer s a

/-- Frame of DECW, DECC and FAIL (R128 to R130, R133): the raw pair, its valid bits, PIDX, OUT and every
byte of the buffer stay; the fault registers stay unless a fault is taken, and then the reading does. -/
def Obligations.ReadingCommandsFrame : Prop :=
  ∀ (i : Instr) (s t : State), ((∃ n, i = .decw n) ∨ (∃ d c, i = .decc d c) ∨ i = .fail) →
    exec i s = .next t →
    t.rawMsb = s.rawMsb ∧ t.msbV = s.msbV ∧ t.rawLsb = s.rawLsb ∧ t.lsbV = s.lsbV ∧
    t.pidx = s.pidx ∧ t.out = s.out ∧ t.bufLen = s.bufLen ∧ t.prog = s.prog ∧
    (∀ a, readBuffer t a = readBuffer s a) ∧
    ((t.faultCode = s.faultCode ∧ t.faultCmd = s.faultCmd ∧ t.halted = s.halted) ∨
     (s.halted = false ∧ t.halted = true ∧ i ≠ .fail ∧ t.rstat = s.rstat ∧ t.result = s.result ∧
      t.rMsb = s.rMsb ∧ t.rLsb = s.rLsb ∧ t.pc = s.pc))

/-- Frame of OUTD, OUTH, PACK and PCLR (R144 to R148, R151, R65): the raw pair and the reading stay; OUTD
and OUTH leave PIDX and every byte of the buffer, PACK leaves OUT and every byte but the two at the
index that `packIndex` gives, PCLR leaves OUT and every byte; the fault registers stay unless a fault
is taken, and then everything else does. -/
def Obligations.FormatterFrame : Prop :=
  ∀ (i : Instr) (s t : State), (i = .outd ∨ i = .outh ∨ i = .pack ∨ i = .pclr) →
    exec i s = .next t →
    t.rawMsb = s.rawMsb ∧ t.msbV = s.msbV ∧ t.rawLsb = s.rawLsb ∧ t.lsbV = s.lsbV ∧
    t.rstat = s.rstat ∧ t.result = s.result ∧ t.rMsb = s.rMsb ∧ t.rLsb = s.rLsb ∧
    t.bufLen = s.bufLen ∧ t.prog = s.prog ∧
    (i = .outd ∨ i = .outh → t.pidx = s.pidx) ∧
    (i = .pack ∨ i = .pclr → t.out = s.out) ∧
    (i ≠ .pack → ∀ a, readBuffer t a = readBuffer s a) ∧
    (∀ a, a ≠ packIndex s → a ≠ packIndex s + 1 → readBuffer t a = readBuffer s a) ∧
    ((t.faultCode = s.faultCode ∧ t.faultCmd = s.faultCmd ∧ t.halted = s.halted) ∨
     (s.halted = false ∧ t.halted = true ∧ i ≠ .pclr ∧ t.pidx = s.pidx ∧ t.out = s.out ∧
      t.pc = s.pc ∧ ∀ a, readBuffer t a = readBuffer s a))

/-- R21's column "written by": each register of the table changes only by the commands it names, the valid
bits only by being set, and the fault registers only by fault entry. -/
def Obligations.OnlyNamedCommandsWriteEachRegister : Prop :=
  ∀ (v : PortValue) (s t : State), submit v s = .next t →
    (t.rawMsb ≠ s.rawMsb → ∃ b, decodeCmd v = .ok (.ldm b) ∧ t.rawMsb = b) ∧
    (t.rawLsb ≠ s.rawLsb → ∃ b, decodeCmd v = .ok (.ldl b) ∧ t.rawLsb = b) ∧
    (t.msbV ≠ s.msbV → t.msbV = true ∧ ∃ b, decodeCmd v = .ok (.ldm b)) ∧
    (t.lsbV ≠ s.lsbV → t.lsbV = true ∧ ∃ b, decodeCmd v = .ok (.ldl b)) ∧
    ((t.rstat, t.result, t.rMsb, t.rLsb) ≠ (s.rstat, s.result, s.rMsb, s.rLsb) →
      (∃ n, decodeCmd v = .ok (.decw n)) ∨ (∃ d c, decodeCmd v = .ok (.decc d c)) ∨
      decodeCmd v = .ok .fail) ∧
    (t.pidx ≠ s.pidx → decodeCmd v = .ok .pack ∨ decodeCmd v = .ok .pclr) ∧
    (t.packBuf ≠ s.packBuf → decodeCmd v = .ok .pack) ∧
    (t.out ≠ s.out → decodeCmd v = .ok .outd ∨ decodeCmd v = .ok .outh) ∧
    ((t.faultCode, t.faultCmd, t.halted) ≠ (s.faultCode, s.faultCmd, s.halted) →
      s.halted = false ∧ t.halted = true ∧ t.faultCode ≠ .none) ∧
    t.bufLen = s.bufLen ∧ t.prog = s.prog

/-! ### Faults -/

/-- R205: a CMD write that raises a fault writes the three fault registers and nothing else: pc, the
buffer and OUT stay, and FAULT_CMD is the low half of the write. -/
def Obligations.FaultEntryIsPrecise : Prop :=
  ∀ (v : PortValue) (s t : State), s.halted = false → submit v s = .next t → t.halted = true →
    ∃ code, code ≠ FaultCode.none ∧
      t = { s with faultCode := code, faultCmd := v.extractLsb' 0 16, halted := true }

/-- R202, R203: in a running block with no fault recorded, each fault code is raised in exactly its case,
illegal encodings before all others and NO_READING before PACK_OVERFLOW; otherwise the write
completes with no fault. -/
def Obligations.FaultsHaveExactlyTheirCauses : Prop :=
  ∀ (v : PortValue) (s : State), s.halted = false → s.faultCode = .none →
    ∃ t, submit v s = .next t ∧
      (t.faultCode = .illegalCmd ↔ ∃ r, decodeCmd v = .illegal r) ∧
      (t.faultCode = .rawUnwritten ↔ ∃ n : Width,
        (decodeCmd v = .ok (.decw n) ∨
          ∃ d c, decodeCmd v = .ok (.decc d c) ∧ layoutWidth d c = some n) ∧
        (s.msbV = false ∨ (8 < n.bits ∧ s.lsbV = false))) ∧
      (t.faultCode = .noReading ↔ s.rstat = .none ∧
        (decodeCmd v = .ok .outd ∨ decodeCmd v = .ok .outh ∨ decodeCmd v = .ok .pack)) ∧
      (t.faultCode = .packOverflow ↔ s.rstat ≠ .none ∧ decodeCmd v = .ok .pack ∧
        s.bufLen.toNat < s.pidx.toNat + 2) ∧
      (t.faultCode = .none ↔ t.halted = false) ∧
      (t.halted = true → t.faultCmd = v.extractLsb' 0 16) ∧
      (t.halted = false → t.pc = s.pc + 1)

/-! ### Invariants, reset, isolation -/

/-- R47, R251: the reset state, and that a reset at the start of a run gives these values from every state
and leaves the pack buffer as it is. -/
def Obligations.ResetValues : Prop :=
  ∀ (cmds : List PortValue) (s t : State), t = State.reset ∨ t = startRun cmds s →
    t.rawMsb = 0x00#8 ∧ t.rawLsb = 0x00#8 ∧ t.msbV = false ∧ t.lsbV = false ∧ t.rstat = .none ∧
    t.result = 0#32 ∧ t.rMsb = 0x00#8 ∧ t.rLsb = 0x00#8 ∧ t.pidx = 0#16 ∧ t.faultCode = .none ∧
    t.faultCmd = 0x0000#16 ∧ t.halted = false ∧ t.out = [] ∧ t.pc = 0 ∧
    (startRun cmds s).packBuf = s.packBuf

/-- The invariant holds after reset (R47, R48), whatever buffer in canonical form the host holds. That a
reset keeps BUF_LEN is the model's reading, no rule of the spec (log entry 13). -/
def Obligations.ResetMeetsInvariant : Prop :=
  State.reset.Inv ∧ (∀ (cmds : List PortValue) (s : State), (startRun cmds s).bufLen = s.bufLen) ∧
  ∀ (cmds : List PortValue) (s : State), Memory.wf s.packBuf = true →
    Memory.below s.bufLen.toNat s.packBuf = true → (startRun cmds s).Inv

/-- R48 and the rest of the invariant: every step keeps it, from every state that meets it. -/
def Obligations.StepKeepsInvariant : Prop :=
  ∀ s t : State, s.Inv → step s = .next t → t.Inv

/-- R43, R59: every access of the host keeps the invariant: any write to the register port, and a byte
written into its own buffer. -/
def Obligations.HostAccessesKeepInvariant : Prop :=
  (∀ (addr width : Nat) (v : PortValue) (s t : State), s.Inv → portWrite addr width v s = .next t →
    t.Inv) ∧
  (∀ (a : Nat) (v : Byte) (s t : State), s.Inv → hostWriteBuffer a v s = .next t → t.Inv)

/-- R51: nothing the block computes depends on the buffer's contents: from two states that differ in the
buffer alone, a step answers alike, leaves states that differ in the buffer alone, and leaves each
index with the same new byte in both or with its old byte in both. -/
def Obligations.BufferContentsNeverMatter : Prop :=
  ∀ (s : State) (m : Memory),
    (∀ f, step s = .fault f → step { s with packBuf := m } = .fault f) ∧
    (∀ r, step s = .refused r → step { s with packBuf := m } = .refused r) ∧
    (∀ t, step s = .next t → ∃ t', step { s with packBuf := m } = .next t' ∧
      t' = { t with packBuf := t'.packBuf } ∧
      ∀ a, readBuffer t' a = readBuffer t a ∨
        (readBuffer t a = readBuffer s a ∧ readBuffer t' a = Memory.read m a))

/-! ### The register port -/

/-- R37: a write of CMD submits its value; a read returns 0 and has no effect. -/
def Obligations.CmdRegister : Prop :=
  ∀ (v : PortValue) (s : State),
    portWrite Config.blockBase 4 v s = submit v s ∧
    portRead Config.blockBase 4 s = .value 0#32 s ∧
    (∀ i, s.halted = false → i.wellFormed = true → v = (encode i).setWidth 32 →
      portWrite Config.blockBase 4 v s = exec i s)

/-- R38, R40: RESULT is the whole register, 0 while the invariant holds and the reading is Failed; PIDX has
zeros above bit 15; both are 0 after reset. -/
def Obligations.ResultAndPidxRegisters : Prop :=
  (∀ s : State,
    portRead (Config.blockBase + 0x04) 4 s = .value s.result s ∧
    (s.Inv → s.rstat = .failed → portRead (Config.blockBase + 0x04) 4 s = .value 0#32 s) ∧
    ∃ v, portRead (Config.blockBase + 0x0C) 4 s = .value v s ∧ v.extractLsb' 0 16 = s.pidx ∧
      v.extractLsb' 16 16 = 0#16) ∧
  portView .result State.reset = 0#32 ∧ portView .pidx State.reset = 0#32

/-- R39: the fields of READING; 3 is never read in its RSTAT field. -/
def Obligations.ReadingRegister : Prop :=
  (∀ s : State, ∃ v, portRead (Config.blockBase + 0x08) 4 s = .value v s ∧
    v.extractLsb' 0 2 = (match s.rstat with | .none => 0#2 | .ok => 1#2 | .failed => 2#2) ∧
    v.extractLsb' 0 2 ≠ 3#2 ∧ v.extractLsb' 2 6 = 0#6 ∧ v.extractLsb' 8 8 = s.rLsb ∧
    v.extractLsb' 16 8 = s.rMsb ∧ v.extractLsb' 24 8 = 0#8) ∧
  portView .reading State.reset = 0#32

/-- R41: the fields of FAULT; codes 5 to 7 are never read, and in a state that meets the invariant HALTED
is read as 1 exactly after a fault, and FAULT_CMD as 0 before one; after a CMD write with bits [31:16]
not zero FAULT_CMD is read as the low half of that write. -/
def Obligations.FaultRegister : Prop :=
  (∀ s : State, ∃ v, portRead (Config.blockBase + 0x10) 4 s = .value v s ∧
    v.extractLsb' 0 3 = (match s.faultCode with
      | .none => 0#3 | .illegalCmd => 1#3 | .rawUnwritten => 2#3 | .noReading => 3#3
      | .packOverflow => 4#3) ∧
    (v.extractLsb' 0 3).toNat < 5 ∧ v.extractLsb' 3 5 = 0#5 ∧
    v.extractLsb' 8 1 = (if s.halted then 1#1 else 0#1) ∧ v.extractLsb' 9 7 = 0#7 ∧
    v.extractLsb' 16 16 = s.faultCmd ∧
    (s.Inv → (v.extractLsb' 8 1 = 1#1 ↔ v.extractLsb' 0 3 ≠ 0#3) ∧
      (v.extractLsb' 0 3 = 0#3 → v.extractLsb' 16 16 = 0#16))) ∧
  (∀ (w : PortValue) (s : State), s.halted = false → w.extractLsb' 16 16 ≠ 0#16 →
    ∃ t v, submit w s = .next t ∧ portRead (Config.blockBase + 0x10) 4 t = .value v t ∧
      v.extractLsb' 0 3 = 1#3 ∧ v.extractLsb' 8 1 = 1#1 ∧ v.extractLsb' 16 16 = w.extractLsb' 0 16) ∧
  portView .fault State.reset = 0#32

/-- R42: the fields of RAW. -/
def Obligations.RawRegister : Prop :=
  (∀ s : State, ∃ v, portRead (Config.blockBase + 0x14) 4 s = .value v s ∧
    v.extractLsb' 0 8 = s.rawLsb ∧ v.extractLsb' 8 8 = s.rawMsb ∧
    v.extractLsb' 16 1 = (if s.lsbV then 1#1 else 0#1) ∧
    v.extractLsb' 17 1 = (if s.msbV then 1#1 else 0#1) ∧ v.extractLsb' 18 14 = 0#14) ∧
  portView .raw State.reset = 0#32

/-- R43: a write to one of the five read-only registers changes no state; an access of another width, or
at an address that is no register's (an unaligned one among them), is refused; a read never changes
state. -/
def Obligations.OtherPortAccesses : Prop :=
  (∀ (off : Nat) (v : PortValue) (s : State), off ∈ [0x04, 0x08, 0x0C, 0x10, 0x14] →
    portWrite (Config.blockBase + off) 4 v s = .next s) ∧
  (∀ (addr width : Nat) (v : PortValue) (s : State),
    width ≠ 4 ∨ (∀ off ∈ [0x00, 0x04, 0x08, 0x0C, 0x10, 0x14], addr ≠ Config.blockBase + off) →
    portRead addr width s = .refused .portAccess ∧
    portWrite addr width v s = .refused .portAccess) ∧
  (∀ (addr width : Nat) (v : PortValue) (s t : State), portRead addr width s = .value v t → t = s)

/-! ### The assembler -/

/-- R81: the line that the table writes for a command assembles to exactly that command, for every
command and operand. -/
def Obligations.AssemblerReadsEveryCommand : Prop :=
  ∀ i : Instr, i.wellFormed = true → assembleLine (asmText i) = some [i]

/-- R81, R82: whatever line the assembler accepts, plain or pseudo, gives only legal commands: no reserved
width, and no fourth channel of the gyroscope. -/
def Obligations.AssemblerYieldsOnlyLegalCommands : Prop :=
  ∀ (line : List Char) (is : List Instr), assembleLine line = some is →
    ∀ i ∈ is, decodeWord (encode i) = .ok i
end

