-- ==== Sys2Proof/Laws/Decode.lean ====
section
/-! SUPPORT. The fields of a word and the word of its fields. -/

namespace Sys2Proof

/-- The bits of a word given by its fields. -/
theorem mkWord_getLsbD (op f : BitVec 4) (i : Byte) (k : Nat) :
    (mkWord op f i).getLsbD k =
      if k < 8 then i.getLsbD k else if k - 8 < 4 then f.getLsbD (k - 8) else op.getLsbD (k - 8 - 4) := by
  have h := BitVec.getLsbD_append (x := op ++ f) (y := i) (i := k)
  have h' := BitVec.getLsbD_append (x := op) (y := f) (i := k - 8)
  exact h.trans (by rw [h'])

@[simp] theorem opField_mkWord (op f : BitVec 4) (i : Byte) : opField (mkWord op f i) = op := by
  apply BitVec.eq_of_getLsbD_eq
  intro k hk
  simp only [opField, BitVec.getLsbD_extractLsb', mkWord_getLsbD, hk, decide_true, Bool.true_and]
  rw [if_neg (by omega), if_neg (by omega), show 12 + k - 8 - 4 = k by omega]

@[simp] theorem fField_mkWord (op f : BitVec 4) (i : Byte) : fField (mkWord op f i) = f := by
  apply BitVec.eq_of_getLsbD_eq
  intro k hk
  simp only [fField, BitVec.getLsbD_extractLsb', mkWord_getLsbD, hk, decide_true, Bool.true_and]
  rw [if_neg (by omega), if_pos (by omega), show 8 + k - 8 = k by omega]

@[simp] theorem iField_mkWord (op f : BitVec 4) (i : Byte) : iField (mkWord op f i) = i := by
  apply BitVec.eq_of_getLsbD_eq
  intro k hk
  simp only [iField, BitVec.getLsbD_extractLsb', mkWord_getLsbD, hk, decide_true, Bool.true_and]
  rw [if_pos (by omega), Nat.zero_add]

/-- A word is the word of its three fields (R70). -/
theorem mkWord_fields (w : Word) : mkWord (opField w) (fField w) (iField w) = w := by
  apply BitVec.eq_of_getLsbD_eq
  intro k hk
  simp only [mkWord_getLsbD, opField, fField, iField, BitVec.getLsbD_extractLsb']
  split
  · simp [show k < 8 by omega]
  · split
    · simp [show k - 8 < 4 by omega, show 8 + (k - 8) = k by omega]
    · simp [show k - 8 - 4 < 4 by omega, show 12 + (k - 8 - 4) = k by omega]

/-- The decoder on a word written by its fields. -/
@[simp] theorem decodeWord_mkWord (op f : BitVec 4) (i : Byte) :
    decodeWord (mkWord op f i) = decodeFields op f i := by
  simp [decodeWord]

@[simp] theorem widthOfCode_widthCode (n : Width) : widthOfCode (widthCode n) = some n := by
  cases n <;> rfl

@[simp] theorem dieOfCode_dieCode (d : Die) : dieOfCode (dieCode d) = some d := by
  cases d <;> rfl

@[simp] theorem channelOfCode_channelCode (c : Channel) : channelOfCode (channelCode c) = c := by
  cases c <;> rfl

/-- The submitted write of a command has its word below and zeros above (R37). -/
@[simp] theorem lowerField_cmdWrite (i : Instr) : lowerField (cmdWrite i) = encode i := by
  apply BitVec.eq_of_getLsbD_eq
  intro k hk
  simp [lowerField, cmdWrite, hk, show k < 32 by omega]

@[simp] theorem upperField_cmdWrite (i : Instr) : upperField (cmdWrite i) = 0#16 := by
  apply BitVec.eq_of_getElem_eq
  intro k hk
  simp [upperField, cmdWrite, BitVec.getLsbD_setWidth]

@[simp] theorem decodeCmd_cmdWrite (i : Instr) : decodeCmd (cmdWrite i) = decodeWord (encode i) := by
  simp [decodeCmd]

end Sys2Proof
end

