-- ==== Sys2Proof/Laws/State.lean ====
section
/-! SUPPORT. Each field of State after each update of it, one lemma a field, so that no proof unfolds a
record update. -/

namespace Sys2Proof.Machine

section
variable (s : State) (b : Byte)

@[simp] theorem State.loadMsb_rawMsb : (s.loadMsb b).rawMsb = b := rfl
@[simp] theorem State.loadMsb_rawLsb : (s.loadMsb b).rawLsb = s.rawLsb := rfl
@[simp] theorem State.loadMsb_msbV : (s.loadMsb b).msbV = true := rfl
@[simp] theorem State.loadMsb_lsbV : (s.loadMsb b).lsbV = s.lsbV := rfl
@[simp] theorem State.loadMsb_rstat : (s.loadMsb b).rstat = s.rstat := rfl
@[simp] theorem State.loadMsb_result : (s.loadMsb b).result = s.result := rfl
@[simp] theorem State.loadMsb_rMsb : (s.loadMsb b).rMsb = s.rMsb := rfl
@[simp] theorem State.loadMsb_rLsb : (s.loadMsb b).rLsb = s.rLsb := rfl
@[simp] theorem State.loadMsb_pidx : (s.loadMsb b).pidx = s.pidx := rfl
@[simp] theorem State.loadMsb_faultCode : (s.loadMsb b).faultCode = s.faultCode := rfl
@[simp] theorem State.loadMsb_faultCmd : (s.loadMsb b).faultCmd = s.faultCmd := rfl
@[simp] theorem State.loadMsb_halted : (s.loadMsb b).halted = s.halted := rfl
@[simp] theorem State.loadMsb_out : (s.loadMsb b).out = s.out := rfl
@[simp] theorem State.loadMsb_pc : (s.loadMsb b).pc = s.pc := rfl
@[simp] theorem State.loadMsb_packBuf : (s.loadMsb b).packBuf = s.packBuf := rfl
@[simp] theorem State.loadMsb_bufLen : (s.loadMsb b).bufLen = s.bufLen := rfl
@[simp] theorem State.loadMsb_prog : (s.loadMsb b).prog = s.prog := rfl

end

section
variable (s : State) (b : Byte)

@[simp] theorem State.loadLsb_rawMsb : (s.loadLsb b).rawMsb = s.rawMsb := rfl
@[simp] theorem State.loadLsb_rawLsb : (s.loadLsb b).rawLsb = b := rfl
@[simp] theorem State.loadLsb_msbV : (s.loadLsb b).msbV = s.msbV := rfl
@[simp] theorem State.loadLsb_lsbV : (s.loadLsb b).lsbV = true := rfl
@[simp] theorem State.loadLsb_rstat : (s.loadLsb b).rstat = s.rstat := rfl
@[simp] theorem State.loadLsb_result : (s.loadLsb b).result = s.result := rfl
@[simp] theorem State.loadLsb_rMsb : (s.loadLsb b).rMsb = s.rMsb := rfl
@[simp] theorem State.loadLsb_rLsb : (s.loadLsb b).rLsb = s.rLsb := rfl
@[simp] theorem State.loadLsb_pidx : (s.loadLsb b).pidx = s.pidx := rfl
@[simp] theorem State.loadLsb_faultCode : (s.loadLsb b).faultCode = s.faultCode := rfl
@[simp] theorem State.loadLsb_faultCmd : (s.loadLsb b).faultCmd = s.faultCmd := rfl
@[simp] theorem State.loadLsb_halted : (s.loadLsb b).halted = s.halted := rfl
@[simp] theorem State.loadLsb_out : (s.loadLsb b).out = s.out := rfl
@[simp] theorem State.loadLsb_pc : (s.loadLsb b).pc = s.pc := rfl
@[simp] theorem State.loadLsb_packBuf : (s.loadLsb b).packBuf = s.packBuf := rfl
@[simp] theorem State.loadLsb_bufLen : (s.loadLsb b).bufLen = s.bufLen := rfl
@[simp] theorem State.loadLsb_prog : (s.loadLsb b).prog = s.prog := rfl

end

section
variable (s : State) (st : RStat) (v : BitVec 32) (m l : Byte)

@[simp] theorem State.setReading_rawMsb : (s.setReading st v m l).rawMsb = s.rawMsb := rfl
@[simp] theorem State.setReading_rawLsb : (s.setReading st v m l).rawLsb = s.rawLsb := rfl
@[simp] theorem State.setReading_msbV : (s.setReading st v m l).msbV = s.msbV := rfl
@[simp] theorem State.setReading_lsbV : (s.setReading st v m l).lsbV = s.lsbV := rfl
@[simp] theorem State.setReading_rstat : (s.setReading st v m l).rstat = st := rfl
@[simp] theorem State.setReading_result : (s.setReading st v m l).result = v := rfl
@[simp] theorem State.setReading_rMsb : (s.setReading st v m l).rMsb = m := rfl
@[simp] theorem State.setReading_rLsb : (s.setReading st v m l).rLsb = l := rfl
@[simp] theorem State.setReading_pidx : (s.setReading st v m l).pidx = s.pidx := rfl
@[simp] theorem State.setReading_faultCode : (s.setReading st v m l).faultCode = s.faultCode := rfl
@[simp] theorem State.setReading_faultCmd : (s.setReading st v m l).faultCmd = s.faultCmd := rfl
@[simp] theorem State.setReading_halted : (s.setReading st v m l).halted = s.halted := rfl
@[simp] theorem State.setReading_out : (s.setReading st v m l).out = s.out := rfl
@[simp] theorem State.setReading_pc : (s.setReading st v m l).pc = s.pc := rfl
@[simp] theorem State.setReading_packBuf : (s.setReading st v m l).packBuf = s.packBuf := rfl
@[simp] theorem State.setReading_bufLen : (s.setReading st v m l).bufLen = s.bufLen := rfl
@[simp] theorem State.setReading_prog : (s.setReading st v m l).prog = s.prog := rfl

end

section
variable (s : State) (p : BitVec 16)

@[simp] theorem State.setPidx_rawMsb : (s.setPidx p).rawMsb = s.rawMsb := rfl
@[simp] theorem State.setPidx_rawLsb : (s.setPidx p).rawLsb = s.rawLsb := rfl
@[simp] theorem State.setPidx_msbV : (s.setPidx p).msbV = s.msbV := rfl
@[simp] theorem State.setPidx_lsbV : (s.setPidx p).lsbV = s.lsbV := rfl
@[simp] theorem State.setPidx_rstat : (s.setPidx p).rstat = s.rstat := rfl
@[simp] theorem State.setPidx_result : (s.setPidx p).result = s.result := rfl
@[simp] theorem State.setPidx_rMsb : (s.setPidx p).rMsb = s.rMsb := rfl
@[simp] theorem State.setPidx_rLsb : (s.setPidx p).rLsb = s.rLsb := rfl
@[simp] theorem State.setPidx_pidx : (s.setPidx p).pidx = p := rfl
@[simp] theorem State.setPidx_faultCode : (s.setPidx p).faultCode = s.faultCode := rfl
@[simp] theorem State.setPidx_faultCmd : (s.setPidx p).faultCmd = s.faultCmd := rfl
@[simp] theorem State.setPidx_halted : (s.setPidx p).halted = s.halted := rfl
@[simp] theorem State.setPidx_out : (s.setPidx p).out = s.out := rfl
@[simp] theorem State.setPidx_pc : (s.setPidx p).pc = s.pc := rfl
@[simp] theorem State.setPidx_packBuf : (s.setPidx p).packBuf = s.packBuf := rfl
@[simp] theorem State.setPidx_bufLen : (s.setPidx p).bufLen = s.bufLen := rfl
@[simp] theorem State.setPidx_prog : (s.setPidx p).prog = s.prog := rfl

end

section
variable (s : State) (bs : List Byte)

@[simp] theorem State.emit_rawMsb : (s.emit bs).rawMsb = s.rawMsb := rfl
@[simp] theorem State.emit_rawLsb : (s.emit bs).rawLsb = s.rawLsb := rfl
@[simp] theorem State.emit_msbV : (s.emit bs).msbV = s.msbV := rfl
@[simp] theorem State.emit_lsbV : (s.emit bs).lsbV = s.lsbV := rfl
@[simp] theorem State.emit_rstat : (s.emit bs).rstat = s.rstat := rfl
@[simp] theorem State.emit_result : (s.emit bs).result = s.result := rfl
@[simp] theorem State.emit_rMsb : (s.emit bs).rMsb = s.rMsb := rfl
@[simp] theorem State.emit_rLsb : (s.emit bs).rLsb = s.rLsb := rfl
@[simp] theorem State.emit_pidx : (s.emit bs).pidx = s.pidx := rfl
@[simp] theorem State.emit_faultCode : (s.emit bs).faultCode = s.faultCode := rfl
@[simp] theorem State.emit_faultCmd : (s.emit bs).faultCmd = s.faultCmd := rfl
@[simp] theorem State.emit_halted : (s.emit bs).halted = s.halted := rfl
@[simp] theorem State.emit_out : (s.emit bs).out = s.out ++ bs := rfl
@[simp] theorem State.emit_pc : (s.emit bs).pc = s.pc := rfl
@[simp] theorem State.emit_packBuf : (s.emit bs).packBuf = s.packBuf := rfl
@[simp] theorem State.emit_bufLen : (s.emit bs).bufLen = s.bufLen := rfl
@[simp] theorem State.emit_prog : (s.emit bs).prog = s.prog := rfl

end

section
variable (s : State) (a : Nat) (v : Byte)

@[simp] theorem State.memWrite_rawMsb : (s.memWrite a v).rawMsb = s.rawMsb := rfl
@[simp] theorem State.memWrite_rawLsb : (s.memWrite a v).rawLsb = s.rawLsb := rfl
@[simp] theorem State.memWrite_msbV : (s.memWrite a v).msbV = s.msbV := rfl
@[simp] theorem State.memWrite_lsbV : (s.memWrite a v).lsbV = s.lsbV := rfl
@[simp] theorem State.memWrite_rstat : (s.memWrite a v).rstat = s.rstat := rfl
@[simp] theorem State.memWrite_result : (s.memWrite a v).result = s.result := rfl
@[simp] theorem State.memWrite_rMsb : (s.memWrite a v).rMsb = s.rMsb := rfl
@[simp] theorem State.memWrite_rLsb : (s.memWrite a v).rLsb = s.rLsb := rfl
@[simp] theorem State.memWrite_pidx : (s.memWrite a v).pidx = s.pidx := rfl
@[simp] theorem State.memWrite_faultCode : (s.memWrite a v).faultCode = s.faultCode := rfl
@[simp] theorem State.memWrite_faultCmd : (s.memWrite a v).faultCmd = s.faultCmd := rfl
@[simp] theorem State.memWrite_halted : (s.memWrite a v).halted = s.halted := rfl
@[simp] theorem State.memWrite_out : (s.memWrite a v).out = s.out := rfl
@[simp] theorem State.memWrite_pc : (s.memWrite a v).pc = s.pc := rfl
@[simp] theorem State.memWrite_packBuf : (s.memWrite a v).packBuf = Memory.write s.packBuf a v := rfl
@[simp] theorem State.memWrite_bufLen : (s.memWrite a v).bufLen = s.bufLen := rfl
@[simp] theorem State.memWrite_prog : (s.memWrite a v).prog = s.prog := rfl

end

section
variable (s : State)

@[simp] theorem State.advance_rawMsb : s.advance.rawMsb = s.rawMsb := rfl
@[simp] theorem State.advance_rawLsb : s.advance.rawLsb = s.rawLsb := rfl
@[simp] theorem State.advance_msbV : s.advance.msbV = s.msbV := rfl
@[simp] theorem State.advance_lsbV : s.advance.lsbV = s.lsbV := rfl
@[simp] theorem State.advance_rstat : s.advance.rstat = s.rstat := rfl
@[simp] theorem State.advance_result : s.advance.result = s.result := rfl
@[simp] theorem State.advance_rMsb : s.advance.rMsb = s.rMsb := rfl
@[simp] theorem State.advance_rLsb : s.advance.rLsb = s.rLsb := rfl
@[simp] theorem State.advance_pidx : s.advance.pidx = s.pidx := rfl
@[simp] theorem State.advance_faultCode : s.advance.faultCode = s.faultCode := rfl
@[simp] theorem State.advance_faultCmd : s.advance.faultCmd = s.faultCmd := rfl
@[simp] theorem State.advance_halted : s.advance.halted = s.halted := rfl
@[simp] theorem State.advance_out : s.advance.out = s.out := rfl
@[simp] theorem State.advance_pc : s.advance.pc = s.pc + 1 := rfl
@[simp] theorem State.advance_packBuf : s.advance.packBuf = s.packBuf := rfl
@[simp] theorem State.advance_bufLen : s.advance.bufLen = s.bufLen := rfl
@[simp] theorem State.advance_prog : s.advance.prog = s.prog := rfl

end

section
variable (s : State) (code : FaultCode) (cmd : Word)

@[simp] theorem State.faultEntry_rawMsb : (s.faultEntry code cmd).rawMsb = s.rawMsb := rfl
@[simp] theorem State.faultEntry_rawLsb : (s.faultEntry code cmd).rawLsb = s.rawLsb := rfl
@[simp] theorem State.faultEntry_msbV : (s.faultEntry code cmd).msbV = s.msbV := rfl
@[simp] theorem State.faultEntry_lsbV : (s.faultEntry code cmd).lsbV = s.lsbV := rfl
@[simp] theorem State.faultEntry_rstat : (s.faultEntry code cmd).rstat = s.rstat := rfl
@[simp] theorem State.faultEntry_result : (s.faultEntry code cmd).result = s.result := rfl
@[simp] theorem State.faultEntry_rMsb : (s.faultEntry code cmd).rMsb = s.rMsb := rfl
@[simp] theorem State.faultEntry_rLsb : (s.faultEntry code cmd).rLsb = s.rLsb := rfl
@[simp] theorem State.faultEntry_pidx : (s.faultEntry code cmd).pidx = s.pidx := rfl
@[simp] theorem State.faultEntry_faultCode : (s.faultEntry code cmd).faultCode = code := rfl
@[simp] theorem State.faultEntry_faultCmd : (s.faultEntry code cmd).faultCmd = cmd := rfl
@[simp] theorem State.faultEntry_halted : (s.faultEntry code cmd).halted = true := rfl
@[simp] theorem State.faultEntry_out : (s.faultEntry code cmd).out = s.out := rfl
@[simp] theorem State.faultEntry_pc : (s.faultEntry code cmd).pc = s.pc := rfl
@[simp] theorem State.faultEntry_packBuf : (s.faultEntry code cmd).packBuf = s.packBuf := rfl
@[simp] theorem State.faultEntry_bufLen : (s.faultEntry code cmd).bufLen = s.bufLen := rfl
@[simp] theorem State.faultEntry_prog : (s.faultEntry code cmd).prog = s.prog := rfl

end

section
variable (s : State)

@[simp] theorem State.packReading_rawMsb : s.packReading.rawMsb = s.rawMsb := rfl
@[simp] theorem State.packReading_rawLsb : s.packReading.rawLsb = s.rawLsb := rfl
@[simp] theorem State.packReading_msbV : s.packReading.msbV = s.msbV := rfl
@[simp] theorem State.packReading_lsbV : s.packReading.lsbV = s.lsbV := rfl
@[simp] theorem State.packReading_rstat : s.packReading.rstat = s.rstat := rfl
@[simp] theorem State.packReading_result : s.packReading.result = s.result := rfl
@[simp] theorem State.packReading_rMsb : s.packReading.rMsb = s.rMsb := rfl
@[simp] theorem State.packReading_rLsb : s.packReading.rLsb = s.rLsb := rfl
@[simp] theorem State.packReading_pidx : s.packReading.pidx = s.pidx + 2#16 := rfl
@[simp] theorem State.packReading_faultCode : s.packReading.faultCode = s.faultCode := rfl
@[simp] theorem State.packReading_faultCmd : s.packReading.faultCmd = s.faultCmd := rfl
@[simp] theorem State.packReading_halted : s.packReading.halted = s.halted := rfl
@[simp] theorem State.packReading_out : s.packReading.out = s.out := rfl
@[simp] theorem State.packReading_pc : s.packReading.pc = s.pc := rfl
@[simp] theorem State.packReading_packBuf : s.packReading.packBuf = Memory.write (Memory.write s.packBuf (packIndex s) (packBytes s).1) (packIndex s + 1) (packBytes s).2 := rfl
@[simp] theorem State.packReading_bufLen : s.packReading.bufLen = s.bufLen := rfl
@[simp] theorem State.packReading_prog : s.packReading.prog = s.prog := rfl

end

section
variable (s : State) (nbits w : Nat)

@[simp] theorem State.withFetchWord_rawMsb : (s.withFetchWord nbits w).rawMsb = s.rawMsb := rfl
@[simp] theorem State.withFetchWord_rawLsb : (s.withFetchWord nbits w).rawLsb = s.rawLsb := rfl
@[simp] theorem State.withFetchWord_msbV : (s.withFetchWord nbits w).msbV = s.msbV := rfl
@[simp] theorem State.withFetchWord_lsbV : (s.withFetchWord nbits w).lsbV = s.lsbV := rfl
@[simp] theorem State.withFetchWord_rstat : (s.withFetchWord nbits w).rstat = s.rstat := rfl
@[simp] theorem State.withFetchWord_result : (s.withFetchWord nbits w).result = s.result := rfl
@[simp] theorem State.withFetchWord_rMsb : (s.withFetchWord nbits w).rMsb = s.rMsb := rfl
@[simp] theorem State.withFetchWord_rLsb : (s.withFetchWord nbits w).rLsb = s.rLsb := rfl
@[simp] theorem State.withFetchWord_pidx : (s.withFetchWord nbits w).pidx = s.pidx := rfl
@[simp] theorem State.withFetchWord_faultCode : (s.withFetchWord nbits w).faultCode = s.faultCode := rfl
@[simp] theorem State.withFetchWord_faultCmd : (s.withFetchWord nbits w).faultCmd = s.faultCmd := rfl
@[simp] theorem State.withFetchWord_halted : (s.withFetchWord nbits w).halted = s.halted := rfl
@[simp] theorem State.withFetchWord_out : (s.withFetchWord nbits w).out = s.out := rfl
@[simp] theorem State.withFetchWord_pc : (s.withFetchWord nbits w).pc = s.pc := rfl
@[simp] theorem State.withFetchWord_packBuf : (s.withFetchWord nbits w).packBuf = s.packBuf := rfl
@[simp] theorem State.withFetchWord_bufLen : (s.withFetchWord nbits w).bufLen = s.bufLen := rfl
@[simp] theorem State.withFetchWord_prog : (s.withFetchWord nbits w).prog = setCommandAt s.prog s.pc (BitVec.ofNat 32 (w % 2 ^ nbits)) := rfl

end

end Sys2Proof.Machine
end

