-- ==== Sys2Proof/Laws/Ops.lean ====
section
/-! SUPPORT. One lemma for each shared operation: everything it can do. -/

namespace Sys2Proof.Machine

theorem whenRunning_of_halted {s : State} (k : State → Result) (h : s.halted = true) :
    whenRunning s k = .next s := by
  simp [whenRunning, h]

theorem whenRunning_of_running {s : State} (k : State → Result) (h : s.halted = false) :
    whenRunning s k = k s := by
  simp [whenRunning, h]

/-- A command is ignored while halted, and otherwise does what its rule says. -/
theorem whenRunning_next {s t : State} {k : State → Result} (h : whenRunning s k = .next t) :
    (s.halted = true ∧ t = s) ∨ (s.halted = false ∧ k s = .next t) := by
  unfold whenRunning at h
  split at h
  · rename_i hs
    cases h
    exact .inl ⟨hs, rfl⟩
  · rename_i hs
    exact .inr ⟨by simpa using hs, h⟩

theorem complete_next {s t : State} : complete s = .next t ↔ t = s.advance := by
  simp [complete, eq_comm]

theorem raiseFault_next {code : FaultCode} {cmd : Word} {s t : State} :
    raiseFault code cmd s = .next t ↔ t = s.faultEntry code cmd := by
  simp [raiseFault, eq_comm]

/-- With no reading the fault is taken; with one the rule goes on. -/
theorem withReading_next {cmd : Word} {s t : State} {k : State → Result}
    (h : withReading cmd s k = .next t) :
    (s.rstat = .none ∧ t = s.faultEntry .noReading cmd) ∨ (s.rstat ≠ .none ∧ k s = .next t) := by
  unfold withReading at h
  split at h
  · rename_i hs
    exact .inl ⟨hs, raiseFault_next.mp h⟩
  · rename_i hs
    exact .inr ⟨by simp [hs], h⟩
  · rename_i hs
    exact .inr ⟨by simp [hs], h⟩

theorem withReading_of_none {cmd : Word} {s : State} (k : State → Result) (h : s.rstat = .none) :
    withReading cmd s k = raiseFault .noReading cmd s := by
  simp [withReading, h]

theorem withReading_of_some {cmd : Word} {s : State} (k : State → Result) (h : s.rstat ≠ .none) :
    withReading cmd s k = k s := by
  unfold withReading
  split
  · contradiction
  · rfl
  · rfl

/-- What the valid bits allow a decode of width n (R127, R128). -/
theorem rawReady_iff (n : Width) (s : State) :
    rawReady n s = true ↔ s.msbV = true ∧ (8 < n.bits → s.lsbV = true) := by
  cases n <;> simp [rawReady, Width.bits]

theorem rawReady_eq_false_iff (n : Width) (s : State) :
    rawReady n s = false ↔ s.msbV = false ∨ (8 < n.bits ∧ s.lsbV = false) := by
  cases n <;> cases h : s.msbV <;> simp [rawReady, Width.bits, h]

/-- What BUF_LEN allows a PACK (R147). -/
theorem packFits_iff (s : State) : packFits s = true ↔ s.pidx.toNat + 2 ≤ s.bufLen.toNat :=
  decide_eq_true_iff

theorem packFits_eq_false_iff (s : State) :
    packFits s = false ↔ s.bufLen.toNat < s.pidx.toNat + 2 := by
  rw [← Bool.not_eq_true, packFits_iff, Nat.not_le]

/-- A decode makes a new Ok reading, or takes RAW_UNWRITTEN. -/
theorem decodePair_next {n : Width} {cmd : Word} {s t : State} (h : decodePair n cmd s = .next t) :
    (rawReady n s = true ∧
      t = (s.setReading .ok (decodedResult n s) s.rawMsb (recordedLsb n s)).advance) ∨
    (rawReady n s = false ∧ t = s.faultEntry .rawUnwritten cmd) := by
  unfold decodePair at h
  split at h
  · rename_i hr
    exact .inl ⟨hr, complete_next.mp h⟩
  · rename_i hr
    exact .inr ⟨by simpa using hr, raiseFault_next.mp h⟩

/-- A CMD write is ignored, or takes ILLEGAL_CMD, or executes the command it holds. -/
theorem submit_next {v : PortValue} {s t : State} (h : submit v s = .next t) :
    (s.halted = true ∧ t = s) ∨
    (s.halted = false ∧ ∃ r, decodeCmd v = .illegal r ∧ t = s.faultEntry .illegalCmd (lowerField v)) ∨
    (s.halted = false ∧ ∃ i, decodeCmd v = .ok i ∧ exec i s = .next t) := by
  rcases whenRunning_next h with h | ⟨hs, h⟩
  · exact .inl h
  · split at h
    · rename_i r hd
      exact .inr (.inl ⟨hs, r, hd, raiseFault_next.mp h⟩)
    · rename_i i hd
      exact .inr (.inr ⟨hs, i, hd, h⟩)

/-- A step that answers a next state is the CMD write at index pc, in a block that runs. -/
theorem step_next {s t : State} (h : step s = .next t) :
    s.halted = false ∧ ∃ v, nextCommand s = some v ∧ submit v s = .next t := by
  unfold step runStep at h
  split at h
  · cases h
  · rename_i hs
    split at h
    · rename_i v hv
      exact ⟨by simpa using hs, v, hv, h⟩
    · cases h

/-- The placed command stands at its index. -/
@[simp] theorem setCommandAt_getElem? (p : List PortValue) (n : Nat) (v : PortValue) :
    (setCommandAt p n v)[n]? = some v := by
  induction n generalizing p with
  | zero => cases p <;> rfl
  | succ n ih => cases p <;> simp [setCommandAt, ih]

/-- Every other command of the list stays. -/
theorem setCommandAt_getElem?_other (p : List PortValue) {n k : Nat} (v : PortValue)
    (hk : k < p.length) (hn : k ≠ n) : (setCommandAt p n v)[k]? = p[k]? := by
  induction n generalizing p k with
  | zero =>
    cases p with
    | nil => simp at hk
    | cons x p => cases k with
      | zero => contradiction
      | succ k => rfl
  | succ n ih =>
    cases p with
    | nil => simp at hk
    | cons x p => cases k with
      | zero => rfl
      | succ k => simpa [setCommandAt] using ih p (by simpa using hk) (by omega)

/-- An index other than the two that PACK writes reads as before. -/
theorem readBuffer_packReading_other (s : State) {a : Nat} (h : a ≠ packIndex s)
    (h' : a ≠ packIndex s + 1) : readBuffer s.packReading a = readBuffer s a := by
  simp [readBuffer, Memory.read_write_other, h, h']

theorem readBuffer_packReading_hi (s : State) :
    readBuffer s.packReading (packIndex s) = some (packBytes s).1 := by
  simp [readBuffer, Memory.read_write_other]

theorem readBuffer_packReading_lo (s : State) :
    readBuffer s.packReading (packIndex s + 1) = some (packBytes s).2 := by
  simp [readBuffer]

end Sys2Proof.Machine
end

