-- ==== Sys2Proof/Laws/PerInstr.lean ====
section
/-! SUPPORT. The opcode of every command's word (30_encoding.md rule R73), instruction by instruction. -/

namespace Sys2Proof.Laws.OpcodeField

/-- The opcode column of R73. -/
def opcode : Instr → BitVec 4
  | .nop => 0x0#4
  | .ldm _ => 0x1#4
  | .ldl _ => 0x2#4
  | .decw _ => 0x3#4
  | .decc _ _ => 0x4#4
  | .fail => 0x5#4
  | .outd => 0x6#4
  | .outh => 0x7#4
  | .pack => 0x8#4
  | .pclr => 0x9#4

/-- The word of the command has the opcode of the table in bits [15:12]. -/
def Statement (i : Instr) : Prop := opField (encode i) = opcode i

theorem nop : Statement .nop := opField_mkWord _ _ _

theorem ldm (b : Byte) : Statement (.ldm b) := opField_mkWord _ _ _

theorem ldl (b : Byte) : Statement (.ldl b) := opField_mkWord _ _ _

theorem decw (n : Width) : Statement (.decw n) := opField_mkWord _ _ _

theorem decc (d : Die) (c : Channel) : Statement (.decc d c) := opField_mkWord _ _ _

theorem fail : Statement .fail := opField_mkWord _ _ _

theorem outd : Statement .outd := opField_mkWord _ _ _

theorem outh : Statement .outh := opField_mkWord _ _ _

theorem pack : Statement .pack := opField_mkWord _ _ _

theorem pclr : Statement .pclr := opField_mkWord _ _ _

end Sys2Proof.Laws.OpcodeField
end

