-- ==== Sys2Proof/Tests/Slice0.lean ====
section
/-! SUPPORT. Tests of the model, their expected results taken from spec/95_test_vectors.md and the worked
examples of the rules, and for every statement with hypotheses a concrete state and operands that meet
them together. -/

namespace Sys2Proof.Tests

open Sys2Proof Sys2Proof.Machine

/-! ### Small states -/

/-- Both raw bytes loaded, a buffer of six bytes (95_test_vectors.md P2). -/
def loaded (m l : Byte) : State :=
  { State.reset with rawMsb := m, rawLsb := l, msbV := true, lsbV := true, bufLen := 6#16 }

/-- The reading of `LDM 0x80 ; LDL 0x00 ; DECW 12` (2.1), after one PACK of the value 31 (W1). -/
def okState : State :=
  { loaded 0x80#8 0x00#8 with
    rstat := .ok, result := 0xFFFFF800#32, rMsb := 0x80#8, rLsb := 0x00#8, pidx := 2#16,
    packBuf := [(0, 0x00#8), (1, 0x1F#8)], prog := [0x00009000#32, 0x00008000#32], pc := 1 }

/-- A Failed reading, the buffer full. -/
def failedFull : State := { loaded 0x01#8 0xF0#8 with rstat := .failed, pidx := 6#16 }

/-- After P5(a): OUTD as the first command. -/
def haltedState : State :=
  { State.reset with faultCode := .noReading, faultCmd := 0x6000#16, halted := true,
                     prog := [0x00006000#32, 0x00001001#32] }

/-- The state after a result that is a next state. -/
def after : Result → Option State
  | .next s => some s
  | .fault _ => none
  | .refused _ => none

/-- The state one CMD write after reset with both valid bits set (2.4). -/
def write (v : PortValue) : Option State := after (submit v (loaded 0#8 0#8))

/-! ### WellFormed: an ill-formed term for each check -/

theorem test_wf_refuses_gyro_fourth : (Instr.decc .gyroscope .aux).wellFormed = false := by decide

theorem test_wf_accepts_rhall : (Instr.decc .magnetometer .aux).wellFormed = true := by decide

theorem test_wf_refuses_read_of_width8 :
    (Pseudo.read2 .accelerometer .aux 0x19#8 0x00#8).wellFormed = false := by decide

theorem test_wf_refuses_read_of_no_channel :
    (Pseudo.read2 .gyroscope .aux 0x19#8 0x00#8).wellFormed = false := by decide

/-! ### Decoding: words written out bit by bit from 30_encoding.md rules R70, R73, R76, R77 -/

theorem test_decode_nop : decodeWord 0b0000_0000_00000000#16 = .ok .nop := by decide

theorem test_decode_ldm : decodeWord 0b0001_0000_10100101#16 = .ok (.ldm 0xA5#8) := by decide

theorem test_decode_ldl : decodeWord 0b0010_0000_11110000#16 = .ok (.ldl 0xF0#8) := by decide

theorem test_decode_decw_8 : decodeWord 0b0011_0000_00000000#16 = .ok (.decw .w8) := by decide

theorem test_decode_decw_14 : decodeWord 0b0011_0110_00000000#16 = .ok (.decw .w14) := by decide

theorem test_decode_decc_gyr_y :
    decodeWord 0b0100_0101_00000000#16 = .ok (.decc .gyroscope .y) := by decide

theorem test_decode_decc_mag_rhall :
    decodeWord 0b0100_1011_00000000#16 = .ok (.decc .magnetometer .aux) := by decide

theorem test_decode_fail : decodeWord 0b0101_0000_00000000#16 = .ok .fail := by decide

theorem test_decode_outd : decodeWord 0b0110_0000_00000000#16 = .ok .outd := by decide

theorem test_decode_outh : decodeWord 0b0111_0000_00000000#16 = .ok .outh := by decide

theorem test_decode_pack : decodeWord 0b1000_0000_00000000#16 = .ok .pack := by decide

theorem test_decode_pclr : decodeWord 0b1001_0000_00000000#16 = .ok .pclr := by decide

/-- R83, every word of the table. -/
theorem test_encode_table :
    [Instr.decw .w8, .decw .w12, .decw .w13, .decw .w14, .decw .w15, .decw .w16,
      .decc .accelerometer .x, .decc .accelerometer .y, .decc .accelerometer .z,
      .decc .accelerometer .aux, .decc .gyroscope .x, .decc .gyroscope .y, .decc .gyroscope .z,
      .decc .magnetometer .x, .decc .magnetometer .y, .decc .magnetometer .z,
      .decc .magnetometer .aux].map encode =
    [0x3000#16, 0x3400#16, 0x3500#16, 0x3600#16, 0x3700#16, 0x3800#16, 0x4000#16, 0x4100#16, 0x4200#16,
      0x4300#16, 0x4400#16, 0x4500#16, 0x4600#16, 0x4800#16, 0x4900#16, 0x4A00#16, 0x4B00#16] := by
  decide

/-- R64: high byte first. -/
theorem test_decode_bytes :
    decodeBytes [0x10#8, 0xA5#8, 0x60#8] = .ok (.ldm 0xA5#8, [0x60#8]) ∧
    decodeBytes [0x60#8] = .illegal .truncated := by decide

/-- The illegal words of 2.4, each by its reason. -/
theorem test_illegal_words :
    decodeCmd 0x00000001#32 = .illegal .nonzeroI ∧ decodeCmd 0x00001100#32 = .illegal .nonzeroF ∧
    decodeCmd 0x00003100#32 = .illegal .reservedWidth ∧ decodeCmd 0x00003401#32 = .illegal .nonzeroI ∧
    decodeCmd 0x00003900#32 = .illegal .reservedWidth ∧
    decodeCmd 0x00004700#32 = .illegal .reservedChannel ∧
    decodeCmd 0x00004C00#32 = .illegal .reservedChannel ∧
    decodeCmd 0x0000A000#32 = .illegal .reservedOpcode ∧
    decodeCmd 0x00016000#32 = .illegal .upperBits := by decide

/-- 2.4: CMD[31:16] ≠ 0 records the low half. -/
theorem test_upper_bits_fault :
    write 0x00016000#32 = some { loaded 0#8 0#8 with
      faultCode := .illegalCmd, faultCmd := 0x6000#16, halted := true } := by decide

theorem test_table_word : decodeTableWord 16 0x3500 = some (.decw .w13) := by decide

theorem test_placed_word_runs :
    after (step (State.reset.withFetchWord 16 0x1001)) =
      some { State.reset with rawMsb := 0x01#8, msbV := true, pc := 1, prog := [0x00001001#32] } := by
  decide

/-! ### Commands -/

/-- R100's example. -/
theorem test_nop : after (exec .nop State.reset) = some { State.reset with pc := 1 } := by decide

/-- R101's example. -/
theorem test_ldm :
    after (exec (.ldm 0x01#8) State.reset) =
      some { State.reset with rawMsb := 0x01#8, msbV := true, pc := 1 } := by decide

/-- R102's example. -/
theorem test_ldl :
    after (exec (.ldl 0xF0#8) State.reset) =
      some { State.reset with rawLsb := 0xF0#8, lsbV := true, pc := 1 } := by decide

/-- W1: MSB 0x01, LSB 0xF0 at 12 bits is 31. -/
theorem test_decw_12 :
    (after (exec (.decw .w12) (loaded 0x01#8 0xF0#8))).map (fun s => (s.result, s.rMsb, s.rLsb, s.rstat)) =
      some (31#32, 0x01#8, 0xF0#8, .ok) := by decide

/-- P5(b): LDM alone, then DECW 12. -/
theorem test_decw_unwritten :
    after (exec (.decw .w12) { loaded 0x01#8 0x00#8 with lsbV := false }) =
      some { loaded 0x01#8 0x00#8 with
        lsbV := false, faultCode := .rawUnwritten, faultCmd := 0x3400#16, halted := true } := by decide

/-- R129's example: 0xFF, 0xFE on `mag, z`. -/
theorem test_decc_mag_z :
    (after (exec (.decc .magnetometer .z) (loaded 0xFF#8 0xFE#8))).map
      (fun s => (s.result, s.rMsb, s.rLsb)) = some (0xFFFFFFFF#32, 0xFF#8, 0xFE#8) := by decide

/-- 2.3: `LDM 0x19 ; DECC acc, t` needs no LSB. -/
theorem test_decc_temperature :
    (after (exec (.decc .accelerometer .aux) { loaded 0x19#8 0xAB#8 with lsbV := false })).map
      (fun s => (s.result, s.rMsb, s.rLsb)) = some (25#32, 0x19#8, 0x00#8) := by decide

/-- R130's example. -/
theorem test_fail :
    (after (exec .fail okState)).map (fun s => (s.rstat, s.result, s.rMsb, s.rLsb, s.rawMsb)) =
      some (.failed, 0#32, 0x00#8, 0x00#8, 0x80#8) := by decide

/-- 2.5: −2048 prints as `-2048,`. -/
theorem test_outd :
    (after (exec .outd okState)).map (·.out) =
      some [0x2D#8, 0x32#8, 0x30#8, 0x34#8, 0x38#8, 0x2C#8] := by decide

/-- P5(a). -/
theorem test_outd_no_reading :
    after (exec .outd State.reset) = some { State.reset with
      faultCode := .noReading, faultCmd := 0x6000#16, halted := true } := by decide

/-- 2.5: raw 0x7F, 0xFF prints as `0x7f 0xff,`. -/
theorem test_outh :
    (after (exec .outh { okState with rMsb := 0x7F#8, rLsb := 0xFF#8 })).map (·.out) =
      some [0x30#8, 0x78#8, 0x37#8, 0x66#8, 0x20#8, 0x30#8, 0x78#8, 0x66#8, 0x66#8, 0x2C#8] := by decide

/-- 2.5: a Failed reading prints as `----,`. -/
theorem test_outh_failed :
    (after (exec .outh failedFull)).map (·.out) =
      some [0x2D#8, 0x2D#8, 0x2D#8, 0x2D#8, 0x2C#8] := by decide

/-- 2.5: −2048 packs as F8 00. -/
theorem test_pack :
    (after (exec .pack okState)).map (fun s => (s.pidx, s.packBuf)) =
      some (4#16, [(0, 0x00#8), (1, 0x1F#8), (2, 0xF8#8), (3, 0x00#8)]) := by decide

/-- P4: a PACK past the end. -/
theorem test_pack_overflow :
    after (exec .pack failedFull) = some { failedFull with
      faultCode := .packOverflow, faultCmd := 0x8000#16, halted := true } := by decide

/-- R148's example. -/
theorem test_pclr : (after (exec .pclr failedFull)).map (·.pidx) = some 0#16 := by decide

/-! ### The codec and the renderings (W2, W3, 2.1, 2.5) -/

theorem test_codec_rows :
    codec .w8 0x80#8 0xAB#8 = -128 ∧ codec .w12 0x80#8 0xFF#8 = -2033 ∧ codec .w13 0x12#8 0x34#8 = 582 ∧
    codec .w13 0xFF#8 0x07#8 = -32 ∧ codec .w14 0x7F#8 0xFC#8 = 8191 ∧ codec .w15 0xFF#8 0x01#8 = -128 ∧
    codec .w16 0xED#8 0xCC#8 = -4660 ∧ codec .w16 0x12#8 0x34#8 = 4660 := by decide

theorem test_pack_raw_rows :
    packRaw .w13 (-4096) = (0x80#8, 0x00#8) ∧ packRaw .w14 (-64) = (0xFF#8, 0x00#8) ∧
    (packRaw .w8 (-128)).1 = 0x80#8 := by decide

theorem test_dec_corners :
    dec 0 = [0x30#8] ∧ dec (-32768) = [0x2D#8, 0x33#8, 0x32#8, 0x37#8, 0x36#8, 0x38#8] := by decide

/-! ### The register port: the views of a state with every field set -/

theorem test_views :
    portView .reading okState = 0x00800001#32 ∧ portView .raw okState = 0x00038000#32 ∧
    portView .fault haltedState = 0x60000103#32 ∧ portView .pidx okState = 2#32 ∧
    portView .result okState = 0xFFFFF800#32 ∧ portView .cmd okState = 0#32 := by decide

/-! ### The assembler and the host's sequences -/

/-- P3's line `DECC mag, rhall`, with a comment. -/
theorem test_assemble_decc :
    assembleWords [['D', 'E', 'C', 'C', ' ', 'm', 'a', 'g', ',', ' ', 'R', 'h', 'a', 'l', 'l', ' ', ';', 'x']] =
      some [0x4B00#16] := by decide

/-- R82: READ of the temperature; R81: width 9 is rejected. -/
theorem test_assemble_read :
    assembleWords [['R', 'E', 'A', 'D', ' ', 'a', 'c', 'c', ',', 't', ',', '2', '5']] =
      some [0x1019#16, 0x4300#16] ∧
    assembleLine ['D', 'E', 'C', 'W', ' ', '9'] = none := by decide

/-- P2: the host's `packChannels` of the gyroscope with its second transaction failed. -/
theorem test_pack_channels :
    commandList (packChannels .gyroscope fun c =>
      match c with
      | .x => .ok 0x12#8 0x34#8
      | .y => .commFailure
      | .z => .ok 0xFF#8 0xFF#8
      | .aux => .commFailure) =
    [0x9000#32, 0x1012#32, 0x2034#32, 0x4400#32, 0x8000#32, 0x5000#32, 0x8000#32, 0x10FF#32, 0x20FF#32,
      0x4600#32, 0x8000#32] := by decide

/-- R216: the temperature channel of the accelerometer takes no LDL (P1). -/
theorem test_read_channels :
    (readChannels false .accelerometer fun _ => .ok 0x19#8 0x00#8).map encode =
    [0x1019#16, 0x2000#16, 0x4000#16, 0x6000#16, 0x1019#16, 0x2000#16, 0x4100#16, 0x6000#16, 0x1019#16,
      0x2000#16, 0x4200#16, 0x6000#16, 0x1019#16, 0x4300#16, 0x6000#16] := by decide

/-- W5 (R219), R220. -/
theorem test_host_checks :
    registerAddressLegal .accelerometer 0x40 = false ∧ registerAddressLegal .magnetometer 0x40 = true ∧
    configurationFailed [.ok, .commFailure, .ok] = true ∧ configurationFailed [.ok, .ok] = false := by
  decide

/-! ### Witnesses: the hypotheses of each statement can be met -/

theorem witness_okState_inv : okState.Inv :=
  ⟨by decide, by decide, by decide, by decide, by decide, by decide, by decide, by decide, by decide,
    by decide⟩

theorem witness_failedFull_inv : failedFull.Inv :=
  ⟨by decide, by decide, by decide, by decide, by decide, by decide, by decide, by decide, by decide,
    by decide⟩

theorem witness_DecodeAcceptsExactlyEncodings :
    decodeWord 0x4B00#16 = .ok (.decc .magnetometer .aux) ∧
    (Instr.decc .magnetometer .aux).wellFormed = true ∧
    encode (.decc .magnetometer .aux) = 0x4B00#16 := by decide

theorem witness_CommandImagesRoundTrip : (Instr.ldm 0xFF#8).wellFormed = true := by decide

theorem witness_LegalWordsNumber535 :
    decodeWord 0x4B00#16 = .ok (.decc .magnetometer .aux) := by decide

theorem witness_UpperCommandBitsAreIllegal :
    okState.halted = false ∧ (0x00016000#32).extractLsb' 16 16 ≠ 0#16 := by decide

theorem witness_ReservedOpcodesAreIllegal :
    0xA ≤ (0xA#4).toNat ∧ okState.halted = false ∧ (0x0000A000#32).extractLsb' 16 16 = 0#16 ∧
    (0x0000A000#32).extractLsb' 12 4 = 0xA#4 := by decide

theorem witness_MustBeZeroFieldsAreIllegal_I :
    okState.halted = false ∧ (0x00003401#32).extractLsb' 16 16 = 0#16 ∧
    (0x00003401#32).extractLsb' 12 4 = 0x3#4 ∧ (0x00003401#32).extractLsb' 0 8 ≠ 0#8 := by decide

theorem witness_MustBeZeroFieldsAreIllegal_F :
    okState.halted = false ∧ (0x00001100#32).extractLsb' 16 16 = 0#16 ∧
    (0x00001100#32).extractLsb' 12 4 = 0x1#4 ∧ (0x00001100#32).extractLsb' 8 4 ≠ 0#4 := by decide

theorem witness_WidthCodesOfDecw_legal :
    (0x3800#16).extractLsb' 12 4 = 0x3#4 ∧ (0x3800#16).extractLsb' 0 8 = 0#8 ∧
    (0x3800#16).extractLsb' 8 4 ∈ [0x0#4, 0x4#4, 0x5#4, 0x6#4, 0x7#4, 0x8#4] := by decide

theorem witness_WidthCodesOfDecw_illegal :
    okState.halted = false ∧ (0x00003900#32).extractLsb' 16 16 = 0#16 ∧
    (0x00003900#32).extractLsb' 12 4 = 0x3#4 ∧
    (0x00003900#32).extractLsb' 8 4 ∉ [0x0#4, 0x4#4, 0x5#4, 0x6#4, 0x7#4, 0x8#4] := by decide

theorem witness_ChannelCodesOfDecc_legal :
    (0x4B00#16).extractLsb' 12 4 = 0x4#4 ∧ (0x4B00#16).extractLsb' 0 8 = 0#8 ∧
    (0x4B00#16).extractLsb' 8 4 ∉ [0x7#4, 0xC#4, 0xD#4, 0xE#4, 0xF#4] := by decide

theorem witness_ChannelCodesOfDecc_illegal :
    okState.halted = false ∧ (0x00004700#32).extractLsb' 16 16 = 0#16 ∧
    (0x00004700#32).extractLsb' 12 4 = 0x4#4 ∧
    (0x00004700#32).extractLsb' 8 4 ∈ [0x7#4, 0xC#4, 0xD#4, 0xE#4, 0xF#4] := by decide

theorem witness_StepRunsDecodedCommand :
    okState.halted = false ∧ okState.prog[okState.pc]? = some 0x00008000#32 ∧
    decodeCmd 0x00008000#32 = .ok .pack := by decide

theorem witness_StepRunsDecodedCommand_illegal :
    okState.halted = false ∧
    ({ okState with prog := [0x0000A000#32], pc := 0 } : State).prog[0]? = some 0x0000A000#32 ∧
    decodeCmd 0x0000A000#32 = .illegal .reservedOpcode := by decide

theorem witness_PlacedWordRunsNext :
    okState.halted = false ∧ (Instr.ldm 0xFF#8).wellFormed = true := by decide

theorem witness_StepStopsOnlyHaltedOrOver_next :
    okState.halted = false ∧ okState.pc < okState.prog.length := by decide

theorem witness_StepStopsOnlyHaltedOrOver_halted : haltedState.halted = true := by decide

theorem witness_StepStopsOnlyHaltedOrOver_over :
    failedFull.halted = false ∧ failedFull.prog.length ≤ failedFull.pc := by decide

theorem witness_HaltedBlockIgnoresCommands : haltedState.halted = true := by decide

theorem witness_HaltedBlockIgnoresCommands_read :
    portDecode (Config.blockBase + 0x14) 4 = some .raw := by
  simp [portDecode, portRegAt]

theorem witness_PcAdvancesOrStaysOnFault : ∃ t, step okState = .next t := ⟨_, rfl⟩

theorem witness_running : (loaded 0x01#8 0xF0#8).halted = false := by decide

theorem witness_NopOnlyAdvancesPc :
    okState.halted = false ∧ haltedState.halted = true ∧ (0x00000001#32).extractLsb' 16 16 = 0#16 ∧
    (0x00000001#32).extractLsb' 12 4 = 0x0#4 ∧ (0x00000001#32).extractLsb' 0 8 ≠ 0#8 := by decide

theorem witness_LdmLoadsRawMsb :
    okState.halted = false ∧ (0x00001F00#32).extractLsb' 16 16 = 0#16 ∧
    (0x00001F00#32).extractLsb' 12 4 = 0x1#4 ∧ (0x00001F00#32).extractLsb' 8 4 ≠ 0#4 := by decide

theorem witness_LdlLoadsRawLsb :
    okState.halted = false ∧ (0x00002100#32).extractLsb' 16 16 = 0#16 ∧
    (0x00002100#32).extractLsb' 12 4 = 0x2#4 ∧ (0x00002100#32).extractLsb' 8 4 ≠ 0#4 := by decide

theorem witness_LoadsAreIndependent : okState.halted = false := by decide

theorem witness_ValidBitsRecordLoads_write : ∃ t, submit 0x00001001#32 State.reset = .next t := ⟨_, rfl⟩

theorem witness_ValidBitsRecordLoads_loads :
    State.reset.halted = false ∧ (after (exec (.ldm 0xFF#8) State.reset)).isSome = true ∧
    (after (exec (.ldl 0xFF#8) State.reset)).isSome = true := by decide

theorem witness_ValidBitsRecordLoads_decode :
    State.reset.halted = false ∧ State.reset.msbV = false ∧
    ({ loaded 0#8 0#8 with lsbV := false } : State).lsbV = false ∧ 8 < Width.w12.bits := by decide

theorem witness_SignExtensionFlipsAndSubtracts : Width.w15 ≠ .w16 := by decide

theorem witness_CodecRoundTrips :
    -(2 ^ (Width.w12.bits - 1)) ≤ (-2048 : Int) ∧ (-2048 : Int) ≤ 2 ^ (Width.w12.bits - 1) - 1 ∧
    (0x0F#8).toNat / 2 ^ (16 - Width.w12.bits) =
      (packRaw .w12 (-2048)).2.toNat / 2 ^ (16 - Width.w12.bits) := by decide

theorem witness_CodecMonotoneAndSigned_low :
    combine .w12 0x7F#8 0xE0#8 < combine .w12 0x7F#8 0xF0#8 ∧
    combine .w12 0x7F#8 0xF0#8 < 2 ^ (Width.w12.bits - 1) := by decide

theorem witness_CodecMonotoneAndSigned_high :
    combine .w12 0x80#8 0x00#8 < combine .w12 0xFF#8 0xF0#8 ∧
    2 ^ (Width.w12.bits - 1) ≤ combine .w12 0x80#8 0x00#8 := by decide

theorem witness_CodecMonotoneAndSigned_edges :
    combine .w12 0x7F#8 0xF0#8 = 2 ^ (Width.w12.bits - 1) - 1 ∧
    combine .w12 0x80#8 0x00#8 = 2 ^ (Width.w12.bits - 1) := by decide

theorem witness_DecwDecodesRawPair :
    (loaded 0x80#8 0x00#8).halted = false ∧ (loaded 0x80#8 0x00#8).msbV = true ∧
    (8 < Width.w16.bits → (loaded 0x80#8 0x00#8).lsbV = true) := by decide

theorem witness_DecwDecodesRawPair_unwritten :
    ({ loaded 0x80#8 0x00#8 with lsbV := false } : State).halted = false ∧ 8 < Width.w12.bits ∧
    ({ loaded 0x80#8 0x00#8 with lsbV := false } : State).lsbV = false := by decide

theorem witness_DecwDecodesRawPair_illegal :
    okState.halted = false ∧ (0x00003300#32).extractLsb' 16 16 = 0#16 ∧
    (0x00003300#32).extractLsb' 12 4 = 0x3#4 ∧
    (0x00003300#32).extractLsb' 8 4 ∉ [0x0#4, 0x4#4, 0x5#4, 0x6#4, 0x7#4, 0x8#4] := by decide

theorem witness_DeccDecodesWithChannelWidth :
    layoutWidth .magnetometer .aux = some .w14 ∧ (loaded 0x80#8 0x00#8).halted = false ∧
    (loaded 0x80#8 0x00#8).msbV = true ∧ (8 < Width.w14.bits → (loaded 0x80#8 0x00#8).lsbV = true) := by
  decide

theorem witness_DeccDecodesWithChannelWidth_unwritten :
    layoutWidth .accelerometer .aux = some .w8 ∧ State.reset.halted = false ∧
    State.reset.msbV = false := by decide

theorem witness_DeccDecodesWithChannelWidth_illegal :
    okState.halted = false ∧ (0x00004F00#32).extractLsb' 16 16 = 0#16 ∧
    (0x00004F00#32).extractLsb' 12 4 = 0x4#4 ∧
    ((0x00004F00#32).extractLsb' 8 4).extractLsb' 2 2 = 3#2 := by decide

theorem witness_DeccOfNoRowIsIllegal : okState.halted = false := by decide

theorem witness_EightBitDecodeIgnoresLsb :
    ({ loaded 0x80#8 0x00#8 with lsbV := false } : State).halted = false ∧
    ({ loaded 0x80#8 0x00#8 with lsbV := false } : State).msbV = true := by decide

theorem witness_FailRecordsFailedReading :
    okState.halted = false ∧ (0x00005001#32).extractLsb' 16 16 = 0#16 ∧
    (0x00005001#32).extractLsb' 12 4 = 0x5#4 ∧ (0x00005001#32).extractLsb' 0 8 ≠ 0#8 := by decide

theorem witness_DecimalTokenOfInteger : (-32768 : Int) ≤ 32767 ∧ 0 < 1 := by decide

theorem witness_HexTokenOfRawBytes :
    okState.rstat = .ok ∧ okState.halted = false ∧ okState.msbV = true ∧
    (after (exec (.decw .w8) okState)).isSome = true := by decide

theorem witness_OutdEmitsDecimalUnit :
    (okState.halted = false ∧ okState.rstat = .ok) ∧
    (failedFull.halted = false ∧ failedFull.rstat = .failed) ∧
    (State.reset.halted = false ∧ State.reset.rstat = .none) ∧
    (0x00006100#32).extractLsb' 16 16 = 0#16 ∧ (0x00006100#32).extractLsb' 12 4 = 0x6#4 ∧
    (0x00006100#32).extractLsb' 8 4 ≠ 0#4 := by decide

theorem witness_OuthEmitsHexUnit :
    (okState.halted = false ∧ okState.rstat = .ok) ∧
    (failedFull.halted = false ∧ failedFull.rstat = .failed) ∧
    (State.reset.halted = false ∧ State.reset.rstat = .none) ∧
    (0x00007001#32).extractLsb' 16 16 = 0#16 ∧ (0x00007001#32).extractLsb' 12 4 = 0x7#4 ∧
    (0x00007001#32).extractLsb' 0 8 ≠ 0#8 := by decide

theorem witness_UnitsAreTokensEndedByComma :
    okState.Inv ∧ okState.halted = false ∧ okState.rstat ≠ .none :=
  ⟨witness_okState_inv, by decide, by decide⟩

theorem witness_UnitsAreTokensEndedByComma_failed :
    failedFull.Inv ∧ failedFull.halted = false ∧ failedFull.rstat ≠ .none :=
  ⟨witness_failedFull_inv, by decide, by decide⟩

theorem witness_OutIsAppendOnly : ∃ t, submit 0x00006000#32 okState = .next t ∧ t.out ≠ [] :=
  ⟨_, rfl, by decide⟩

/-- The buffer exactly filled: PIDX + 2 = BUF_LEN. -/
theorem witness_PackAppendsBigEndian :
    ({ okState with pidx := 4#16 } : State).halted = false ∧ okState.rstat ≠ .none ∧
    (4#16).toNat + 2 = okState.bufLen.toNat := by decide

theorem witness_PackAppendsBigEndian_faults :
    (State.reset.halted = false ∧ State.reset.rstat = .none) ∧
    (failedFull.halted = false ∧ failedFull.rstat ≠ .none ∧
      failedFull.bufLen.toNat < failedFull.pidx.toNat + 2) ∧
    (0x00008001#32).extractLsb' 16 16 = 0#16 ∧ (0x00008001#32).extractLsb' 12 4 = 0x8#4 ∧
    (0x00008001#32).extractLsb' 0 8 ≠ 0#8 := by decide

theorem witness_PclrClearsIndex :
    failedFull.halted = false ∧ (0x00009001#32).extractLsb' 16 16 = 0#16 ∧
    (0x00009001#32).extractLsb' 12 4 = 0x9#4 ∧ (0x00009001#32).extractLsb' 0 8 ≠ 0#8 := by decide

theorem witness_PackedBytesLoseNothing : okState.Inv ∧ okState.rstat = .ok :=
  ⟨witness_okState_inv, by decide⟩

theorem witness_FinalIndexCountsPacks :
    okState.halted = false ∧ okState.rstat ≠ .none ∧ 2 * 3 ≤ okState.bufLen.toNat := by decide

theorem witness_RawInputFrame : ∃ t, exec (.ldl 0xFF#8) okState = .next t := ⟨_, rfl⟩

theorem witness_ReadingCommandsFrame : ∃ t, exec (.decw .w16) okState = .next t := ⟨_, rfl⟩

theorem witness_ReadingCommandsFrame_fault :
    ∃ t, exec (.decw .w16) State.reset = .next t ∧ t.halted = true := ⟨_, rfl, rfl⟩

theorem witness_FormatterFrame : ∃ t, exec .pack okState = .next t ∧ t.pidx ≠ okState.pidx :=
  ⟨_, rfl, by decide⟩

theorem witness_FormatterFrame_fault : ∃ t, exec .pack failedFull = .next t ∧ t.halted = true :=
  ⟨_, rfl, rfl⟩

theorem witness_OnlyNamedCommandsWriteEachRegister :
    ∃ t, submit 0x00001001#32 okState = .next t ∧ t.rawMsb ≠ okState.rawMsb := ⟨_, rfl, by decide⟩

theorem witness_OnlyNamedCommandsWriteEachRegister_validBits :
    (∃ t, submit 0x00001001#32 State.reset = .next t ∧ t.msbV ≠ State.reset.msbV) ∧
    ∃ t, submit 0x00002001#32 State.reset = .next t ∧ t.lsbV ≠ State.reset.lsbV :=
  ⟨⟨_, rfl, by decide⟩, ⟨_, rfl, by decide⟩⟩

theorem witness_FaultEntryIsPrecise :
    ∃ t, State.reset.halted = false ∧ submit 0x00008000#32 State.reset = .next t ∧ t.halted = true :=
  ⟨_, rfl, rfl, rfl⟩

theorem witness_FaultsHaveExactlyTheirCauses : okState.halted = false ∧ okState.faultCode = .none := by
  decide

theorem witness_ResetMeetsInvariant :
    Memory.wf okState.packBuf = true ∧ Memory.below okState.bufLen.toNat okState.packBuf = true := by
  decide

theorem witness_StepKeepsInvariant : ∃ t, okState.Inv ∧ step okState = .next t :=
  ⟨_, witness_okState_inv, rfl⟩

theorem witness_HostAccessesKeepInvariant :
    okState.Inv ∧ (∃ t, portWrite Config.blockBase 4 0x00008000#32 okState = .next t) ∧
    ∃ t, hostWriteBuffer 5 0xFF#8 okState = .next t := by
  refine ⟨witness_okState_inv, ?_, ⟨_, rfl⟩⟩
  simp only [portWrite, portDecode, Nat.le_refl, and_self, if_true, Nat.sub_self, portRegAt]
  exact ⟨_, rfl⟩

theorem witness_BufferContentsNeverMatter_next : ∃ t, step okState = .next t := ⟨_, rfl⟩

theorem witness_BufferContentsNeverMatter_stops :
    step haltedState = .fault .halted ∧ step failedFull = .refused .noCommand := ⟨rfl, rfl⟩

theorem witness_CmdRegister :
    okState.halted = false ∧
    (Instr.ldm 0xFF#8).wellFormed = true ∧ 0x000010FF#32 = (encode (.ldm 0xFF#8)).setWidth 32 := by
  decide

theorem witness_ResultAndPidxRegisters : failedFull.Inv ∧ failedFull.rstat = .failed :=
  ⟨witness_failedFull_inv, by decide⟩

theorem witness_OtherPortAccesses :
    (0x14 : Nat) ∈ [0x04, 0x08, 0x0C, 0x10, 0x14] ∧ (2 : Nat) ≠ 4 := by decide

theorem witness_OtherPortAccesses_address :
    ∀ off ∈ [0x00, 0x04, 0x08, 0x0C, 0x10, 0x14],
      Config.blockBase + 0x02 ≠ Config.blockBase + off := by
  intro off h
  have h' : (0x02 : Nat) ∉ [0x00, 0x04, 0x08, 0x0C, 0x10, 0x14] := by decide
  intro heq
  exact h' (Nat.add_left_cancel heq ▸ h)

theorem witness_OtherPortAccesses_read :
    ∃ v, portRead (Config.blockBase + 0x14) 4 haltedState = .value v haltedState := by
  refine ⟨portView .raw haltedState, ?_⟩
  simp [portRead, portDecode, portRegAt]

theorem witness_FaultRegister :
    okState.Inv ∧ okState.halted = false ∧ (0x00016000#32).extractLsb' 16 16 ≠ 0#16 :=
  ⟨witness_okState_inv, by decide, by decide⟩

theorem witness_AssemblerReadsEveryCommand : (Instr.decc .magnetometer .aux).wellFormed = true := by
  decide

theorem witness_AssemblerYieldsOnlyLegalCommands :
    assembleLine ['d', 'e', 'c', 'w', ' ', '1', '6'] = some [.decw .w16] := by decide

end Sys2Proof.Tests
end

/-! ### Commands and their words -/

namespace Sys2Proof

/-- The word of a well-formed command decodes to it (R73 to R77). -/
theorem decodeWord_encode {i : Instr} (h : i.wellFormed = true) : decodeWord (encode i) = .ok i := by
  cases i with
  | decw n => simp [encode, decodeFields, decodeWidthOperand]
  | decc d c =>
    obtain ⟨n, row⟩ := Option.isSome_iff_exists.mp h
    have hdie : (dieCode d ++ channelCode c).extractLsb' 2 2 = dieCode d :=
      BitVec.extractLsb'_append_eq_left
    have hchannel : (dieCode d ++ channelCode c).extractLsb' 0 2 = channelCode c :=
      BitVec.extractLsb'_append_eq_right
    simp [encode, decodeFields, decodeChannelOperand, hdie, hchannel, row]
  | ldm b | ldl b => simp [encode, decodeFields, decodeByteOperand]
  | nop | fail | outd | outh | pack | pclr => rfl

/-- The opcode-table word of a command, read as a CMD write, is the write that submits it. -/
theorem ofNat_encode_toNat (i : Instr) : BitVec.ofNat 32 ((encode i).toNat % 2 ^ 16) = cmdWrite i := by
  rw [Nat.mod_eq_of_lt (encode i).isLt]
  exact BitVec.ofNat_toNat _ _

/-- A CMD write with bits [31:16] not zero is illegal before any other check (R71). -/
theorem decodeCmd_of_upper_ne {v : PortValue} (h : upperField v ≠ 0#16) :
    decodeCmd v = .illegal .upperBits :=
  if_pos h

end Sys2Proof

/-! ### What a command can do -/

namespace Sys2Proof.Machine

/-- `Completes s i u`: in the running state s the command i passes its checks and makes the state u, whose
pc has not advanced yet. `exec_running` ties it to the model. -/
inductive Completes (s : State) : Instr → State → Prop
  | nop : Completes s .nop s
  | ldm (b : Byte) : Completes s (.ldm b) (s.loadMsb b)
  | ldl (b : Byte) : Completes s (.ldl b) (s.loadLsb b)
  | decw {n : Width} (ready : rawReady n s = true) :
      Completes s (.decw n) (s.setReading .ok (decodedResult n s) s.rawMsb (recordedLsb n s))
  | decc {d : Die} {c : Channel} {n : Width} (row : layoutWidth d c = some n)
      (ready : rawReady n s = true) :
      Completes s (.decc d c) (s.setReading .ok (decodedResult n s) s.rawMsb (recordedLsb n s))
  | fail : Completes s .fail (s.setReading .failed 0#32 0x00#8 0x00#8)
  | outd (reading : s.rstat ≠ .none) : Completes s .outd (s.emit (decToken s ++ [comma]))
  | outh (reading : s.rstat ≠ .none) : Completes s .outh (s.emit (hexToken s ++ [comma]))
  | pack (reading : s.rstat ≠ .none) (fits : packFits s = true) : Completes s .pack s.packReading
  | pclr : Completes s .pclr (s.setPidx 0#16)

/-- `Faults s i code`: in the running state s the command i takes the fault `code` (R202, R203).
`exec_running` ties it to the model. -/
inductive Faults (s : State) : Instr → FaultCode → Prop
  | decw {n : Width} (unwritten : rawReady n s = false) : Faults s (.decw n) .rawUnwritten
  | decc {d : Die} {c : Channel} {n : Width} (row : layoutWidth d c = some n)
      (unwritten : rawReady n s = false) : Faults s (.decc d c) .rawUnwritten
  | deccNoRow {d : Die} {c : Channel} (noRow : layoutWidth d c = none) :
      Faults s (.decc d c) .illegalCmd
  | outd (noReading : s.rstat = .none) : Faults s .outd .noReading
  | outh (noReading : s.rstat = .none) : Faults s .outh .noReading
  | packNoReading (noReading : s.rstat = .none) : Faults s .pack .noReading
  | packOverflow (reading : s.rstat ≠ .none) (full : packFits s = false) :
      Faults s .pack .packOverflow

theorem Faults.code_ne_none {s : State} {i : Instr} {code : FaultCode} (h : Faults s i code) :
    code ≠ .none := by
  cases h <;> decide

theorem Completes.pc_eq {s u : State} {i : Instr} (h : Completes s i u) : u.pc = s.pc := by
  cases h <;> rfl

theorem Completes.halted_eq {s u : State} {i : Instr} (h : Completes s i u) : u.halted = s.halted := by
  cases h <;> rfl

theorem Completes.bufLen_eq {s u : State} {i : Instr} (h : Completes s i u) : u.bufLen = s.bufLen := by
  cases h <;> rfl

theorem Completes.prog_eq {s u : State} {i : Instr} (h : Completes s i u) : u.prog = s.prog := by
  cases h <;> rfl

/-- The three fault registers together: a command that completes leaves them. -/
theorem Completes.faultRegs_eq {s u : State} {i : Instr} (h : Completes s i u) :
    (u.faultCode, u.faultCmd, u.halted) = (s.faultCode, s.faultCmd, s.halted) := by
  cases h <;> rfl

theorem decodePair_of_ready {n : Width} {s : State} (cmd : Word) (h : rawReady n s = true) :
    decodePair n cmd s =
      complete (s.setReading .ok (decodedResult n s) s.rawMsb (recordedLsb n s)) :=
  if_pos h

theorem decodePair_of_unwritten {n : Width} {s : State} (cmd : Word) (h : rawReady n s = false) :
    decodePair n cmd s = raiseFault .rawUnwritten cmd s :=
  if_neg (by simp [h])

/-! #### Each command in a running block -/

section
variable {s : State} (hs : s.halted = false)
include hs

theorem exec_nop : exec .nop s = complete s := whenRunning_of_running _ hs

theorem exec_ldm (b : Byte) : exec (.ldm b) s = complete (s.loadMsb b) := by
  rw [exec, execLdm, whenRunning_of_running _ hs]

theorem exec_ldl (b : Byte) : exec (.ldl b) s = complete (s.loadLsb b) := by
  rw [exec, execLdl, whenRunning_of_running _ hs]

theorem exec_decw (n : Width) : exec (.decw n) s = decodePair n (encode (.decw n)) s := by
  rw [exec, execDecw, whenRunning_of_running _ hs]

theorem exec_decc {d : Die} {c : Channel} {n : Width} (row : layoutWidth d c = some n) :
    exec (.decc d c) s = decodePair n (encode (.decc d c)) s := by
  simp [exec, execDecc, whenRunning_of_running _ hs, row]

theorem exec_decc_noRow {d : Die} {c : Channel} (noRow : layoutWidth d c = none) :
    exec (.decc d c) s = raiseFault .illegalCmd (encode (.decc d c)) s := by
  simp [exec, execDecc, whenRunning_of_running _ hs, noRow]

theorem exec_fail : exec .fail s = complete (s.setReading .failed 0#32 0x00#8 0x00#8) := by
  rw [exec, execFail, whenRunning_of_running _ hs]

theorem exec_outd (hr : s.rstat ≠ .none) :
    exec .outd s = complete (s.emit (decToken s ++ [comma])) := by
  rw [exec, execOutd, whenRunning_of_running _ hs, withReading_of_some _ hr]

theorem exec_outd_noReading (hr : s.rstat = .none) :
    exec .outd s = raiseFault .noReading (encode .outd) s := by
  rw [exec, execOutd, whenRunning_of_running _ hs, withReading_of_none _ hr]

theorem exec_outh (hr : s.rstat ≠ .none) :
    exec .outh s = complete (s.emit (hexToken s ++ [comma])) := by
  rw [exec, execOuth, whenRunning_of_running _ hs, withReading_of_some _ hr]

theorem exec_outh_noReading (hr : s.rstat = .none) :
    exec .outh s = raiseFault .noReading (encode .outh) s := by
  rw [exec, execOuth, whenRunning_of_running _ hs, withReading_of_none _ hr]

theorem exec_pack (hr : s.rstat ≠ .none) (hf : packFits s = true) :
    exec .pack s = complete s.packReading := by
  rw [exec, execPack, whenRunning_of_running _ hs, withReading_of_some _ hr, if_pos hf]

theorem exec_pack_full (hr : s.rstat ≠ .none) (hf : packFits s = false) :
    exec .pack s = raiseFault .packOverflow (encode .pack) s := by
  rw [exec, execPack, whenRunning_of_running _ hs, withReading_of_some _ hr, if_neg (by simp [hf])]

theorem exec_pack_noReading (hr : s.rstat = .none) :
    exec .pack s = raiseFault .noReading (encode .pack) s := by
  rw [exec, execPack, whenRunning_of_running _ hs, withReading_of_none _ hr]

theorem exec_pclr : exec .pclr s = complete (s.setPidx 0#16) := by
  rw [exec, execPclr, whenRunning_of_running _ hs]

/-- Everything a command can do in a running block: it completes, or it takes a fault with its own word in
FAULT_CMD. -/
theorem exec_running (i : Instr) :
    (∃ u, Completes s i u ∧ exec i s = complete u) ∨
    (∃ code, Faults s i code ∧ exec i s = raiseFault code (encode i) s) := by
  cases i with
  | nop => exact .inl ⟨_, .nop, exec_nop hs⟩
  | ldm b => exact .inl ⟨_, .ldm b, exec_ldm hs b⟩
  | ldl b => exact .inl ⟨_, .ldl b, exec_ldl hs b⟩
  | decw n =>
    rw [exec_decw hs]
    cases hr : rawReady n s with
    | true => exact .inl ⟨_, .decw hr, decodePair_of_ready _ hr⟩
    | false => exact .inr ⟨_, .decw hr, decodePair_of_unwritten _ hr⟩
  | decc d c =>
    cases row : layoutWidth d c with
    | none => exact .inr ⟨_, .deccNoRow row, exec_decc_noRow hs row⟩
    | some n =>
      rw [exec_decc hs row]
      cases hr : rawReady n s with
      | true => exact .inl ⟨_, .decc row hr, decodePair_of_ready _ hr⟩
      | false => exact .inr ⟨_, .decc row hr, decodePair_of_unwritten _ hr⟩
  | fail => exact .inl ⟨_, .fail, exec_fail hs⟩
  | outd =>
    by_cases hr : s.rstat = .none
    · exact .inr ⟨_, .outd hr, exec_outd_noReading hs hr⟩
    · exact .inl ⟨_, .outd hr, exec_outd hs hr⟩
  | outh =>
    by_cases hr : s.rstat = .none
    · exact .inr ⟨_, .outh hr, exec_outh_noReading hs hr⟩
    · exact .inl ⟨_, .outh hr, exec_outh hs hr⟩
  | pack =>
    by_cases hr : s.rstat = .none
    · exact .inr ⟨_, .packNoReading hr, exec_pack_noReading hs hr⟩
    · cases hf : packFits s with
      | true => exact .inl ⟨_, .pack hr hf, exec_pack hs hr hf⟩
      | false => exact .inr ⟨_, .packOverflow hr hf, exec_pack_full hs hr hf⟩
  | pclr => exact .inl ⟨_, .pclr, exec_pclr hs⟩

end

/-- A decode that reads an unwritten raw byte takes RAW_UNWRITTEN, as DECW or as DECC (R23, R127). -/
theorem exec_decode_unwritten {i : Instr} {n : Width} {s : State} (hs : s.halted = false)
    (hi : i = .decw n ∨ ∃ d c, i = .decc d c ∧ layoutWidth d c = some n)
    (hr : rawReady n s = false) : exec i s = raiseFault .rawUnwritten (encode i) s := by
  rcases hi with rfl | ⟨d, c, rfl, row⟩
  · rw [exec_decw hs, decodePair_of_unwritten _ hr]
  · rw [exec_decc hs row, decodePair_of_unwritten _ hr]

/-! ### What a CMD write can do -/

theorem submit_of_ok {v : PortValue} {i : Instr} {s : State} (hs : s.halted = false)
    (hd : decodeCmd v = .ok i) : submit v s = exec i s := by
  simp [submit, whenRunning_of_running _ hs, hd]

theorem submit_of_illegal {v : PortValue} {r : Illegal} {s : State} (hs : s.halted = false)
    (hd : decodeCmd v = .illegal r) : submit v s = raiseFault .illegalCmd (lowerField v) s := by
  simp [submit, whenRunning_of_running _ hs, hd]

/-- Everything a CMD write can do in a running block (R78): it holds no command, or a command that completes,
or one that takes a fault. -/
theorem submit_running (v : PortValue) {s : State} (hs : s.halted = false) :
    (∃ r, decodeCmd v = .illegal r ∧ submit v s = raiseFault .illegalCmd (lowerField v) s) ∨
    (∃ i u, decodeCmd v = .ok i ∧ Completes s i u ∧ submit v s = complete u) ∨
    (∃ i code, decodeCmd v = .ok i ∧ Faults s i code ∧
      submit v s = raiseFault code (encode i) s) := by
  cases hd : decodeCmd v with
  | illegal r => exact .inl ⟨r, rfl, submit_of_illegal hs hd⟩
  | ok i =>
    rw [submit_of_ok hs hd]
    rcases exec_running hs i with ⟨u, hc, he⟩ | ⟨code, hf, he⟩
    · exact .inr (.inl ⟨i, u, rfl, hc, he⟩)
    · exact .inr (.inr ⟨i, code, rfl, hf, he⟩)

/-- A CMD write always answers a next state. -/
theorem submit_total (v : PortValue) (s : State) : ∃ t, submit v s = .next t := by
  cases hs : s.halted with
  | true => exact ⟨s, whenRunning_of_halted _ hs⟩
  | false =>
    rcases submit_running v hs with ⟨_, _, he⟩ | ⟨_, _, _, _, he⟩ | ⟨_, _, _, _, he⟩
    · exact ⟨_, he⟩
    · exact ⟨_, he⟩
    · exact ⟨_, he⟩

/-- The next state of a CMD write in a running block: the completed command's with pc advanced, or that of
fault entry. -/
theorem submit_running_next {v : PortValue} {s t : State} (hs : s.halted = false)
    (h : submit v s = .next t) :
    (∃ i u, decodeCmd v = .ok i ∧ Completes s i u ∧ t = u.advance) ∨
    (∃ code cmd, code ≠ FaultCode.none ∧ t = s.faultEntry code cmd) := by
  rcases submit_running v hs with ⟨r, _, he⟩ | ⟨i, u, hd, hc, he⟩ | ⟨i, code, _, hf, he⟩
  · exact .inr ⟨_, _, by decide, raiseFault_next.mp (he.symm.trans h)⟩
  · exact .inl ⟨i, u, hd, hc, complete_next.mp (he.symm.trans h)⟩
  · exact .inr ⟨code, _, hf.code_ne_none, raiseFault_next.mp (he.symm.trans h)⟩

/-- Whatever of the state neither pc nor fault entry touches is changed by completed commands alone. -/
theorem submit_changes {α : Type} (f : State → α) (hadvance : ∀ u, f u.advance = f u)
    (hfault : ∀ u code cmd, f (State.faultEntry u code cmd) = f u) {v : PortValue} {s t : State}
    (h : submit v s = .next t) :
    f t = f s ∨ ∃ i u, decodeCmd v = .ok i ∧ Completes s i u ∧ f t = f u := by
  rcases whenRunning_next h with ⟨_, rfl⟩ | ⟨hs, _⟩
  · exact .inl rfl
  · rcases submit_running_next hs h with ⟨i, u, hd, hc, rfl⟩ | ⟨code, cmd, _, rfl⟩
    · exact .inr ⟨i, u, hd, hc, hadvance u⟩
    · exact .inl (hfault s code cmd)

/-! ### Each register after a CMD write (the column "written by" of R21) -/

section
variable {v : PortValue} {s t : State}

theorem submit_rawMsb (h : submit v s = .next t) :
    t.rawMsb = s.rawMsb ∨ ∃ b, decodeCmd v = .ok (.ldm b) ∧ t.rawMsb = b := by
  rcases submit_changes State.rawMsb (fun _ => rfl) (fun _ _ _ => rfl) h with h | ⟨i, u, hd, hc, hu⟩
  · exact .inl h
  · cases hc with
    | ldm b => exact .inr ⟨b, hd, hu⟩
    | _ => exact .inl hu

theorem submit_rawLsb (h : submit v s = .next t) :
    t.rawLsb = s.rawLsb ∨ ∃ b, decodeCmd v = .ok (.ldl b) ∧ t.rawLsb = b := by
  rcases submit_changes State.rawLsb (fun _ => rfl) (fun _ _ _ => rfl) h with h | ⟨i, u, hd, hc, hu⟩
  · exact .inl h
  · cases hc with
    | ldl b => exact .inr ⟨b, hd, hu⟩
    | _ => exact .inl hu

theorem submit_msbV (h : submit v s = .next t) :
    t.msbV = s.msbV ∨ (t.msbV = true ∧ ∃ b, decodeCmd v = .ok (.ldm b)) := by
  rcases submit_changes State.msbV (fun _ => rfl) (fun _ _ _ => rfl) h with h | ⟨i, u, hd, hc, hu⟩
  · exact .inl h
  · cases hc with
    | ldm b => exact .inr ⟨hu, b, hd⟩
    | _ => exact .inl hu

theorem submit_lsbV (h : submit v s = .next t) :
    t.lsbV = s.lsbV ∨ (t.lsbV = true ∧ ∃ b, decodeCmd v = .ok (.ldl b)) := by
  rcases submit_changes State.lsbV (fun _ => rfl) (fun _ _ _ => rfl) h with h | ⟨i, u, hd, hc, hu⟩
  · exact .inl h
  · cases hc with
    | ldl b => exact .inr ⟨hu, b, hd⟩
    | _ => exact .inl hu

/-- The ChannelReading, its four registers together (R24). -/
def State.reading (s : State) : RStat × BitVec 32 × Byte × Byte := (s.rstat, s.result, s.rMsb, s.rLsb)

theorem submit_reading (h : submit v s = .next t) :
    t.reading = s.reading ∨ (∃ n, decodeCmd v = .ok (.decw n)) ∨
      (∃ d c, decodeCmd v = .ok (.decc d c)) ∨ decodeCmd v = .ok .fail := by
  rcases submit_changes State.reading (fun _ => rfl) (fun _ _ _ => rfl) h with h | ⟨i, u, hd, hc, hu⟩
  · exact .inl h
  · cases hc with
    | decw _ => exact .inr (.inl ⟨_, hd⟩)
    | decc _ _ => exact .inr (.inr (.inl ⟨_, _, hd⟩))
    | fail => exact .inr (.inr (.inr hd))
    | _ => exact .inl hu

theorem submit_pidx (h : submit v s = .next t) :
    t.pidx = s.pidx ∨ decodeCmd v = .ok .pack ∨ decodeCmd v = .ok .pclr := by
  rcases submit_changes State.pidx (fun _ => rfl) (fun _ _ _ => rfl) h with h | ⟨i, u, hd, hc, hu⟩
  · exact .inl h
  · cases hc with
    | pack _ _ => exact .inr (.inl hd)
    | pclr => exact .inr (.inr hd)
    | _ => exact .inl hu

theorem submit_packBuf (h : submit v s = .next t) :
    t.packBuf = s.packBuf ∨ decodeCmd v = .ok .pack := by
  rcases submit_changes State.packBuf (fun _ => rfl) (fun _ _ _ => rfl) h with h | ⟨i, u, hd, hc, hu⟩
  · exact .inl h
  · cases hc with
    | pack _ _ => exact .inr hd
    | _ => exact .inl hu

/-- OUT stays, or OUTD or OUTH appends its unit to it. -/
theorem submit_out (h : submit v s = .next t) :
    t.out = s.out ∨ (∃ u, t.out = s.out ++ u) ∧ (decodeCmd v = .ok .outd ∨ decodeCmd v = .ok .outh) := by
  rcases submit_changes State.out (fun _ => rfl) (fun _ _ _ => rfl) h with h | ⟨i, u, hd, hc, hu⟩
  · exact .inl h
  · cases hc with
    | outd _ => exact .inr ⟨⟨_, hu⟩, .inl hd⟩
    | outh _ => exact .inr ⟨⟨_, hu⟩, .inr hd⟩
    | _ => exact .inl hu

theorem submit_bufLen (h : submit v s = .next t) : t.bufLen = s.bufLen := by
  rcases submit_changes State.bufLen (fun _ => rfl) (fun _ _ _ => rfl) h with h | ⟨i, u, _, hc, hu⟩
  · exact h
  · exact hu.trans hc.bufLen_eq

theorem submit_prog (h : submit v s = .next t) : t.prog = s.prog := by
  rcases submit_changes State.prog (fun _ => rfl) (fun _ _ _ => rfl) h with h | ⟨i, u, _, hc, hu⟩
  · exact h
  · exact hu.trans hc.prog_eq

/-- The fault registers stay, or fault entry in a running block writes them. -/
theorem submit_faultRegs (h : submit v s = .next t) :
    (t.faultCode, t.faultCmd, t.halted) = (s.faultCode, s.faultCmd, s.halted) ∨
      (s.halted = false ∧ t.halted = true ∧ t.faultCode ≠ .none) := by
  rcases whenRunning_next h with ⟨_, rfl⟩ | ⟨hs, _⟩
  · exact .inl rfl
  · rcases submit_running_next hs h with ⟨i, u, _, hc, rfl⟩ | ⟨code, cmd, hcode, rfl⟩
    · exact .inl hc.faultRegs_eq
    · exact .inr ⟨hs, rfl, hcode⟩

end

/-! ### The step -/

theorem step_of_halted {s : State} (hs : s.halted = true) : step s = .fault .halted := by
  simp [step, runStep, hs]

theorem step_of_next {s : State} {v : PortValue} (hs : s.halted = false)
    (hv : nextCommand s = some v) : step s = submit v s := by
  simp [step, runStep, hs, hv]

theorem step_of_over {s : State} (hs : s.halted = false) (hv : nextCommand s = none) :
    step s = .refused .noCommand := by
  simp [step, runStep, hs, hv]

theorem nextCommand_eq_none_iff {s : State} : nextCommand s = none ↔ s.prog.length ≤ s.pc :=
  List.getElem?_eq_none_iff

/-- The three answers of a step, with their conditions, which exclude each other. -/
theorem step_answers (s : State) :
    (s.halted = true ∧ step s = .fault .halted) ∨
    (s.halted = false ∧ s.prog.length ≤ s.pc ∧ step s = .refused .noCommand) ∨
    (s.halted = false ∧ s.pc < s.prog.length ∧ ∃ t, step s = .next t) := by
  cases hs : s.halted with
  | true => exact .inl ⟨rfl, step_of_halted hs⟩
  | false =>
    rcases Nat.lt_or_ge s.pc s.prog.length with hpc | hpc
    · obtain ⟨t, ht⟩ := submit_total s.prog[s.pc] s
      exact .inr (.inr ⟨rfl, hpc, t, (step_of_next hs (List.getElem?_eq_getElem hpc)).trans ht⟩)
    · exact .inr (.inl ⟨rfl, hpc, step_of_over hs (nextCommand_eq_none_iff.mpr hpc)⟩)

/-! ### The invariant (R48) -/

section
variable {s : State}

theorem State.Inv.advance (h : s.Inv) : s.advance.Inv :=
  ⟨h.haltedIff, h.faultCmdClear, h.failedZero, h.okRange, h.pidxEven, h.pidxLe, h.noneZero, h.rawZero,
    h.bufWf, h.bufBelow⟩

theorem State.Inv.emit (h : s.Inv) (bs : List Byte) : (s.emit bs).Inv :=
  ⟨h.haltedIff, h.faultCmdClear, h.failedZero, h.okRange, h.pidxEven, h.pidxLe, h.noneZero, h.rawZero,
    h.bufWf, h.bufBelow⟩

theorem State.Inv.faultEntry (h : s.Inv) {code : FaultCode} (cmd : Word) (hcode : code ≠ .none) :
    (s.faultEntry code cmd).Inv :=
  { h with
    haltedIff := iff_of_true rfl hcode
    faultCmdClear := fun hnone => absurd hnone hcode }

theorem State.Inv.loadMsb (h : s.Inv) (b : Byte) : (s.loadMsb b).Inv :=
  { h with rawZero := ⟨fun hv => absurd hv (by simp), h.rawZero.2⟩ }

theorem State.Inv.loadLsb (h : s.Inv) (b : Byte) : (s.loadLsb b).Inv :=
  { h with rawZero := ⟨h.rawZero.1, fun hv => absurd hv (by simp)⟩ }

theorem State.Inv.setReading_ok (h : s.Inv) {r : BitVec 32} (m l : Byte)
    (hr : -32768 ≤ r.toInt ∧ r.toInt ≤ 32767) : (s.setReading .ok r m l).Inv :=
  { h with
    failedZero := fun hst => absurd hst (by simp)
    okRange := fun _ => hr
    noneZero := fun hst => absurd hst (by simp) }

theorem State.Inv.setReading_failed (h : s.Inv) : (s.setReading .failed 0#32 0x00#8 0x00#8).Inv :=
  { h with
    failedZero := fun _ => ⟨rfl, rfl, rfl⟩
    okRange := fun hst => absurd hst (by simp)
    noneZero := fun hst => absurd hst (by simp) }

theorem State.Inv.setPidx (h : s.Inv) {p : BitVec 16} (heven : p.toNat % 2 = 0)
    (hle : p.toNat ≤ s.bufLen.toNat) : (s.setPidx p).Inv :=
  { h with pidxEven := heven, pidxLe := hle }

/-- A byte written below BUF_LEN, by PACK or by the host, keeps the invariant. -/
theorem State.Inv.memWrite (h : s.Inv) {a : Nat} (b : Byte) (ha : a < s.bufLen.toNat) :
    (s.memWrite a b).Inv :=
  { h with
    bufWf := Memory.wf_write a b h.bufWf
    bufBelow := Memory.below_write b h.bufBelow ha }

theorem State.Inv.packReading (h : s.Inv) (fits : packFits s = true) : s.packReading.Inv := by
  have hfit := (packFits_iff s).mp fits
  have hpidx : (s.pidx + 2#16).toNat = s.pidx.toNat + 2 := by
    rw [BitVec.toNat_add, BitVec.toNat_ofNat]
    have := s.bufLen.isLt
    omega
  have hfirst := h.memWrite (packBytes s).1 (show packIndex s < _ by unfold packIndex; omega)
  have hboth := hfirst.memWrite (packBytes s).2
    (show packIndex s + 1 < s.bufLen.toNat by unfold packIndex; omega)
  have heven := h.pidxEven
  exact hboth.setPidx (by omega) (by rw [hpidx]; exact hfit)

end

/-- The combined value of the codec occupies n bits (R121). -/
theorem combine_lt (n : Width) (m l : Byte) : combine n m l < 2 ^ n.bits := by
  have hbits : 8 + (8 - n.lsbShift) = n.bits := by cases n <;> rfl
  have hmsb : m.toNat <<< (8 - n.lsbShift) < 2 ^ (8 + (8 - n.lsbShift)) := Nat.shiftLeft_lt m.isLt
  have hlsb : l.toNat >>> n.lsbShift < 2 ^ n.bits :=
    calc l.toNat >>> n.lsbShift ≤ l.toNat := Nat.shiftRight_le _ _
      _ < 2 ^ 8 := l.isLt
      _ ≤ 2 ^ n.bits := Nat.pow_le_pow_right (by decide) (by omega)
  exact Nat.or_lt_two_pow (hbits ▸ hmsb) hlsb

/-- A decoded value is in the 16-bit range, at every width (R25, R122, R123). -/
theorem codec_range (n : Width) (m l : Byte) : -32768 ≤ codec n m l ∧ codec n m l ≤ 32767 := by
  have hsigned : -32768 ≤ signExtend n (combine n m l) ∧ signExtend n (combine n m l) ≤ 32767 := by
    have hbias : 1 <<< n.signBitPosition < 2 ^ n.bits := by cases n <;> decide
    have hflip := Nat.xor_lt_two_pow (combine_lt n m l) hbias
    unfold signExtend
    cases n <;> simp only [Width.bits, Width.signBitPosition, Nat.one_shiftLeft] at hbias hflip ⊢ <;>
      omega
  have hdirect : -32768 ≤ directRead m l ∧ directRead m l ≤ 32767 :=
    ⟨BitVec.le_toInt _, Int.le_of_lt_add_one BitVec.toInt_lt⟩
  cases n with
  | w16 => exact hdirect
  | _ => exact hsigned

theorem decodedResult_range (n : Width) (s : State) :
    -32768 ≤ (decodedResult n s).toInt ∧ (decodedResult n s).toInt ≤ 32767 := by
  have hr := codec_range n s.rawMsb s.rawLsb
  have hint : (decodedResult n s).toInt = codec n s.rawMsb s.rawLsb := by
    rw [decodedResult, BitVec.toInt_ofInt]
    exact Int.bmod_eq_of_le (by omega) (by omega)
  rwa [hint]

theorem Completes.keeps_inv {s u : State} {i : Instr} (hc : Completes s i u) (h : s.Inv) : u.Inv := by
  cases hc with
  | nop => exact h
  | ldm b => exact h.loadMsb b
  | ldl b => exact h.loadLsb b
  | decw _ => exact h.setReading_ok _ _ (decodedResult_range _ s)
  | decc _ _ => exact h.setReading_ok _ _ (decodedResult_range _ s)
  | fail => exact h.setReading_failed
  | outd _ => exact h.emit _
  | outh _ => exact h.emit _
  | pack _ fits => exact h.packReading fits
  | pclr => exact h.setPidx rfl (Nat.zero_le _)

/-- Every CMD write keeps the invariant. -/
theorem submit_keeps_inv {v : PortValue} {s t : State} (h : s.Inv) (ht : submit v s = .next t) :
    t.Inv := by
  rcases whenRunning_next ht with ⟨_, rfl⟩ | ⟨hs, _⟩
  · exact h
  · rcases submit_running_next hs ht with ⟨i, u, _, hc, rfl⟩ | ⟨code, cmd, hcode, rfl⟩
    · exact (hc.keeps_inv h).advance
    · exact h.faultEntry cmd hcode

theorem reset_inv : State.reset.Inv where
  haltedIff := by decide
  faultCmdClear := by decide
  failedZero := by decide
  okRange := by decide
  pidxEven := by decide
  pidxLe := by decide
  noneZero := by decide
  rawZero := by decide
  bufWf := rfl
  bufBelow := rfl

/-! ### The register port -/

theorem portDecode_blockBase_add (off : Nat) :
    portDecode (Config.blockBase + off) 4 = portRegAt off := by
  simp [portDecode]

/-- The six offsets of R36 are the only ones with a register. -/
theorem mem_offsets_of_portRegAt {off : Nat} {r : PortReg} (h : portRegAt off = some r) :
    off ∈ [0x00, 0x04, 0x08, 0x0C, 0x10, 0x14] := by
  unfold portRegAt at h
  split at h <;> simp at h ⊢

/-- An access reaches a register only at its width and at one of the six addresses. -/
theorem portDecode_some {addr width : Nat} {r : PortReg} (h : portDecode addr width = some r) :
    width = 4 ∧ ∃ off ∈ [0x00, 0x04, 0x08, 0x0C, 0x10, 0x14], addr = Config.blockBase + off := by
  unfold portDecode at h
  split at h
  · rename_i hacc
    exact ⟨hacc.1, _, mem_offsets_of_portRegAt h, (Nat.add_sub_of_le hacc.2).symm⟩
  · cases h

/-- A 32-bit read of a register returns its view and changes nothing. -/
theorem portRead_of_reg {off : Nat} {r : PortReg} (s : State) (h : portRegAt off = some r) :
    portRead (Config.blockBase + off) 4 s = .value (portView r s) s := by
  rw [portRead, portDecode_blockBase_add, h]

/-- A write to CMD submits its value (R37). -/
theorem portWrite_cmd {addr width : Nat} (v : PortValue) (s : State)
    (h : portDecode addr width = some .cmd) : portWrite addr width v s = submit v s := by
  rw [portWrite, h]

/-- A write to any other register is ignored (R43). -/
theorem portWrite_readOnly {addr width : Nat} {r : PortReg} (v : PortValue) (s : State)
    (h : portDecode addr width = some r) (hr : r ≠ .cmd) : portWrite addr width v s = .next s := by
  rw [portWrite, h]
  cases r with
  | cmd => contradiction
  | _ => rfl

theorem portWrite_refused {addr width : Nat} (v : PortValue) (s : State)
    (h : portDecode addr width = none) : portWrite addr width v s = .refused .portAccess := by
  rw [portWrite, h]

theorem portRead_refused {addr width : Nat} (s : State) (h : portDecode addr width = none) :
    portRead addr width s = .refused .portAccess := by
  rw [portRead, h]

/-- A port write that answers a next state is a CMD write, or leaves the state as it is. -/
theorem portWrite_next {addr width : Nat} {v : PortValue} {s t : State}
    (h : portWrite addr width v s = .next t) : submit v s = .next t ∨ t = s := by
  cases hd : portDecode addr width with
  | none => rw [portWrite_refused v s hd] at h; cases h
  | some r =>
    by_cases hr : r = .cmd
    · exact .inl ((portWrite_cmd v s (hr ▸ hd)).symm.trans h)
    · rw [portWrite_readOnly v s hd hr] at h
      cases h
      exact .inr rfl

/-- An access of another width or at an address that is no register's reaches none (R43). -/
theorem portDecode_eq_none {addr width : Nat}
    (h : width ≠ 4 ∨ ∀ off ∈ [0x00, 0x04, 0x08, 0x0C, 0x10, 0x14], addr ≠ Config.blockBase + off) :
    portDecode addr width = none := by
  rw [Option.eq_none_iff_forall_ne_some]
  intro r hr
  obtain ⟨hwidth, off, hoff, haddr⟩ := portDecode_some hr
  rcases h with h | h
  · exact h hwidth
  · exact h off hoff haddr

/-- The five offsets of R43 are those of registers other than CMD. -/
theorem portRegAt_readOnly {off : Nat} (h : off ∈ [0x04, 0x08, 0x0C, 0x10, 0x14]) :
    ∃ r, portRegAt off = some r ∧ r ≠ .cmd := by
  have hall : ∀ off ∈ [0x04, 0x08, 0x0C, 0x10, 0x14], ∃ r ∈ portRegAt off, r ≠ .cmd := by decide
  exact hall off h

/-! #### The fields of the registers (R39, R41, R42)

A view is an append of fields: one step into the lower or the upper part for each append above a field. -/

section
open BitVec
variable (s : State)

@[simp] theorem readingView_rstat : (readingView s).extractLsb' 0 2 = s.rstat.code :=
  (extractLsb'_append_eq_of_add_le (by decide)).trans extractLsb'_append_eq_right
@[simp] theorem readingView_zero_2 : (readingView s).extractLsb' 2 6 = 0#6 :=
  (extractLsb'_append_eq_of_add_le (by decide)).trans extractLsb'_append_eq_left
@[simp] theorem readingView_rLsb : (readingView s).extractLsb' 8 8 = s.rLsb :=
  (extractLsb'_append_eq_of_le (by decide)).trans extractLsb'_append_eq_right
@[simp] theorem readingView_rMsb : (readingView s).extractLsb' 16 8 = s.rMsb :=
  (extractLsb'_append_eq_of_le (by decide)).trans <|
    (extractLsb'_append_eq_of_le (by decide)).trans extractLsb'_append_eq_right
@[simp] theorem readingView_zero_24 : (readingView s).extractLsb' 24 8 = 0#8 :=
  (extractLsb'_append_eq_of_le (by decide)).trans <|
    (extractLsb'_append_eq_of_le (by decide)).trans extractLsb'_append_eq_left

@[simp] theorem faultView_code : (faultView s).extractLsb' 0 3 = s.faultCode.code :=
  (extractLsb'_append_eq_of_add_le (by decide)).trans extractLsb'_append_eq_right
@[simp] theorem faultView_zero_3 : (faultView s).extractLsb' 3 5 = 0#5 :=
  (extractLsb'_append_eq_of_add_le (by decide)).trans extractLsb'_append_eq_left
@[simp] theorem faultView_halted : (faultView s).extractLsb' 8 1 = BitVec.ofBool s.halted :=
  (extractLsb'_append_eq_of_le (by decide)).trans <|
    (extractLsb'_append_eq_of_add_le (by decide)).trans extractLsb'_append_eq_right
@[simp] theorem faultView_zero_9 : (faultView s).extractLsb' 9 7 = 0#7 :=
  (extractLsb'_append_eq_of_le (by decide)).trans <|
    (extractLsb'_append_eq_of_add_le (by decide)).trans extractLsb'_append_eq_left
@[simp] theorem faultView_faultCmd : (faultView s).extractLsb' 16 16 = s.faultCmd :=
  (extractLsb'_append_eq_of_le (by decide)).trans extractLsb'_append_eq_left

@[simp] theorem rawView_rawLsb : (rawView s).extractLsb' 0 8 = s.rawLsb :=
  (extractLsb'_append_eq_of_add_le (by decide)).trans extractLsb'_append_eq_right
@[simp] theorem rawView_rawMsb : (rawView s).extractLsb' 8 8 = s.rawMsb :=
  (extractLsb'_append_eq_of_add_le (by decide)).trans extractLsb'_append_eq_left
@[simp] theorem rawView_lsbV : (rawView s).extractLsb' 16 1 = BitVec.ofBool s.lsbV :=
  (extractLsb'_append_eq_of_le (by decide)).trans <|
    (extractLsb'_append_eq_of_add_le (by decide)).trans extractLsb'_append_eq_right
@[simp] theorem rawView_msbV : (rawView s).extractLsb' 17 1 = BitVec.ofBool s.msbV :=
  (extractLsb'_append_eq_of_le (by decide)).trans <|
    (extractLsb'_append_eq_of_add_le (by decide)).trans extractLsb'_append_eq_left
@[simp] theorem rawView_zero_18 : (rawView s).extractLsb' 18 14 = 0#14 :=
  (extractLsb'_append_eq_of_le (by decide)).trans extractLsb'_append_eq_left

end

theorem ofBool_eq_ite (b : Bool) : BitVec.ofBool b = if b then 1#1 else 0#1 := by cases b <;> rfl

theorem FaultCode.code_eq_zero_iff (c : FaultCode) : c.code = 0#3 ↔ c = .none := by
  cases c <;> decide

/-- In a state of the invariant HALTED and FAULT_CMD are read as R41 says. -/
theorem State.Inv.faultView_consistent {s : State} (h : s.Inv) :
    ((faultView s).extractLsb' 8 1 = 1#1 ↔ (faultView s).extractLsb' 0 3 ≠ 0#3) ∧
    ((faultView s).extractLsb' 0 3 = 0#3 → (faultView s).extractLsb' 16 16 = 0#16) := by
  have hhalted : BitVec.ofBool s.halted = 1#1 ↔ s.halted = true := by cases s.halted <;> decide
  rw [faultView_halted, faultView_code, faultView_faultCmd, hhalted, Ne, FaultCode.code_eq_zero_iff]
  exact ⟨h.haltedIff, h.faultCmdClear⟩

/-! ### Packed bytes and RESULT -/

/-- A 32-bit pattern in the 16-bit range is the sign extension of its own low half (R25). -/
theorem signExtend_low_half {r : BitVec 32} (hr : -32768 ≤ r.toInt ∧ r.toInt ≤ 32767) :
    (r.extractLsb' 0 16).signExtend 32 = r := by
  apply BitVec.eq_of_toInt_eq
  rw [BitVec.toInt_signExtend_of_le (by decide), BitVec.toInt_extractLsb', Nat.shiftRight_zero]
  have hmod : ((r.toNat : Int)).bmod (2 ^ 16) = r.toInt.bmod (2 ^ 16) := by
    rw [BitVec.toInt_eq_toNat_bmod, Int.bmod_bmod_of_dvd (by decide)]
  rw [hmod]
  exact Int.bmod_eq_of_le (by omega) (by omega)

/-- The packed bytes of an Ok reading are the low half of RESULT, most significant byte first (R146). -/
theorem packBytes_append_of_ok {s : State} (hok : s.rstat = .ok) :
    ((packBytes s).1 ++ (packBytes s).2 : BitVec 16) = s.result.extractLsb' 0 16 := by
  have hlow : packedHalf s = s.result.extractLsb' 0 16 := BitVec.setWidth_eq_extractLsb' (by decide)
  rw [← hlow, packBytes, hok]
  exact (BitVec.extractLsb'_append_extractLsb'_eq_extractLsb' rfl).trans BitVec.extractLsb'_eq_self

/-! ### The statements of 10_state.md, in order of tier -/

/-- Settles O50: a step is a CMD write, and a CMD write keeps the invariant. -/
theorem stepKeepsInvariant : Obligations.StepKeepsInvariant := by
  intro s t h hstep
  obtain ⟨_, v, _, hsub⟩ := step_next hstep
  exact submit_keeps_inv h hsub

/-- Settles O13: each clause is read off the three answers of a step. -/
theorem stepStopsOnlyHaltedOrOver : Obligations.StepStopsOnlyHaltedOrOver := by
  intro s
  rcases step_answers s with ⟨hs, he⟩ | ⟨hs, hpc, he⟩ | ⟨hs, hpc, t, he⟩
  · simp [hs, he, show Nonempty Fault from ⟨.halted⟩]
  · simp [hs, he, hpc]
  · simp [hs, he, hpc]

/-- Settles O15: pc by the two ways a CMD write ends in a running block. -/
theorem pcAdvancesOrStaysOnFault : Obligations.PcAdvancesOrStaysOnFault := by
  refine ⟨rfl, fun s t hstep => ?_⟩
  obtain ⟨hs, v, _, hsub⟩ := step_next hstep
  rcases submit_running_next hs hsub with ⟨i, u, _, hc, rfl⟩ | ⟨code, cmd, _, rfl⟩
  · exact .inl ⟨hc.halted_eq.trans hs, congrArg (· + 1) hc.pc_eq⟩
  · exact .inr ⟨rfl, rfl⟩

/-- Settles O20. -/
theorem validBitsRecordLoads : Obligations.ValidBitsRecordLoads := by
  refine ⟨rfl, rfl, fun v s t h => ⟨submit_msbV h, submit_lsbV h⟩, fun b s t hs h => ?_,
    fun b s t hs h => ?_, fun i n s hi hs hr => ?_⟩
  · have ht : t = (s.loadMsb b).advance := complete_next.mp ((exec_ldm hs b).symm.trans h)
    rw [ht, State.advance_msbV, State.loadMsb_msbV]
  · have ht : t = (s.loadLsb b).advance := complete_next.mp ((exec_ldl hs b).symm.trans h)
    rw [ht, State.advance_lsbV, State.loadLsb_lsbV]
  · have hunwritten := (rawReady_eq_false_iff n s).mpr hr
    exact ⟨_, exec_decode_unwritten hs hi hunwritten, rfl, rfl⟩

/-- Settles O37: OUT stays, with the empty list appended, but for OUTD and OUTH. -/
theorem outIsAppendOnly : Obligations.OutIsAppendOnly := by
  refine ⟨rfl, fun v s t h => ?_⟩
  rcases submit_out h with hsame | ⟨⟨u, hu⟩, hcmd⟩
  · exact ⟨[], by rw [hsame, List.append_nil], fun hne => absurd rfl hne⟩
  · exact ⟨u, hu, fun _ => hcmd⟩

/-- Settles O40. -/
theorem packedBytesLoseNothing : Obligations.PackedBytesLoseNothing := by
  intro s h hok
  have hlow := signExtend_low_half (h.okRange hok)
  exact ⟨(congrArg _ (packBytes_append_of_ok hok)).trans hlow, hlow.symm⟩

/-- Settles O45, register by register. -/
theorem onlyNamedCommandsWriteEachRegister : Obligations.OnlyNamedCommandsWriteEachRegister := by
  intro v s t h
  exact ⟨(submit_rawMsb h).resolve_left, (submit_rawLsb h).resolve_left, (submit_msbV h).resolve_left,
    (submit_lsbV h).resolve_left, (submit_reading h).resolve_left, (submit_pidx h).resolve_left,
    (submit_packBuf h).resolve_left, fun hne => ((submit_out h).resolve_left hne).2,
    (submit_faultRegs h).resolve_left, submit_bufLen h, submit_prog h⟩

/-- Settles O51: a port write is a CMD write or no change; the host's byte lies below BUF_LEN. -/
theorem hostAccessesKeepInvariant : Obligations.HostAccessesKeepInvariant := by
  refine ⟨fun addr width v s t h ht => ?_, fun a v s t h ht => ?_⟩
  · rcases portWrite_next ht with hsub | rfl
    · exact submit_keeps_inv h hsub
    · exact h
  · unfold hostWriteBuffer at ht
    split at ht
    · rename_i ha
      cases ht
      exact h.memWrite v ha
    · cases ht

/-- Settles O54. -/
theorem resultAndPidxRegisters : Obligations.ResultAndPidxRegisters := by
  refine ⟨fun s => ⟨portRead_of_reg (r := .result) s rfl, fun h hfailed => ?_,
    s.pidx.setWidth 32, portRead_of_reg (r := .pidx) s rfl, ?_, ?_⟩, rfl, rfl⟩
  · rw [portRead_of_reg s (r := .result) rfl, portView, (h.failedZero hfailed).1]
  · rw [BitVec.extractLsb'_setWidth_of_le (by decide), BitVec.extractLsb'_eq_self]
  · exact BitVec.eq_of_toNat_eq (by simp [Nat.shiftRight_eq_div_pow]; omega)

/-- Settles O55, field by field. -/
theorem readingRegister : Obligations.ReadingRegister := by
  refine ⟨fun s => ⟨readingView s, portRead_of_reg (r := .reading) s rfl, ?_, ?_, readingView_zero_2 s,
    readingView_rLsb s, readingView_rMsb s, readingView_zero_24 s⟩, rfl⟩
  · rw [readingView_rstat]
    cases s.rstat <;> rfl
  · rw [readingView_rstat]
    cases s.rstat <;> decide

/-- Settles O56: the fields, what the invariant says of them, and a write with bits [31:16] not zero. -/
theorem faultRegister : Obligations.FaultRegister := by
  refine ⟨fun s => ⟨faultView s, portRead_of_reg (r := .fault) s rfl, ?_, ?_, faultView_zero_3 s, ?_,
    faultView_zero_9 s, faultView_faultCmd s, fun h => h.faultView_consistent⟩,
    fun w s hs hw => ?_, rfl⟩
  · rw [faultView_code]
    cases s.faultCode <;> rfl
  · rw [faultView_code]
    cases s.faultCode <;> decide
  · rw [faultView_halted, ofBool_eq_ite]
  · exact ⟨_, _, submit_of_illegal hs (decodeCmd_of_upper_ne hw), portRead_of_reg _ rfl,
      faultView_code _, faultView_halted _, faultView_faultCmd _⟩

/-- Settles O57, field by field. -/
theorem rawRegister : Obligations.RawRegister := by
  refine ⟨fun s => ⟨rawView s, portRead_of_reg (r := .raw) s rfl, rawView_rawLsb s, rawView_rawMsb s, ?_,
    ?_, rawView_zero_18 s⟩, rfl⟩
  · rw [rawView_lsbV, ofBool_eq_ite]
  · rw [rawView_msbV, ofBool_eq_ite]

/-- Settles O58. -/
theorem otherPortAccesses : Obligations.OtherPortAccesses := by
  refine ⟨fun off v s hoff => ?_, fun addr width v s h => ?_, fun addr width v s t h => ?_⟩
  · obtain ⟨r, hr, hcmd⟩ := portRegAt_readOnly hoff
    exact portWrite_readOnly v s ((portDecode_blockBase_add off).trans hr) hcmd
  · have hnone := portDecode_eq_none h
    exact ⟨portRead_refused s hnone, portWrite_refused v s hnone⟩
  · unfold portRead at h
    split at h
    · cases h
      rfl
    · cases h

/-- Settles O10, row by row. -/
theorem layoutTableRows : Obligations.LayoutTableRows := by
  unfold Obligations.LayoutTableRows
  decide

/-- Settles O11. -/
theorem stepRunsDecodedCommand : Obligations.StepRunsDecodedCommand := by
  intro s v hs hv
  have hstep : step s = submit v s := step_of_next hs hv
  exact ⟨fun i hd => hstep.trans (submit_of_ok hs hd),
    fun r hd => hstep.trans (submit_of_illegal hs hd)⟩

/-- Settles O12: the placed word stands at index pc, and its CMD write decodes to the command. -/
theorem placedWordRunsNext : Obligations.PlacedWordRunsNext := by
  intro s i hi
  have hd : decodeCmd (cmdWrite i) = .ok i := (decodeCmd_cmdWrite i).trans (decodeWord_encode hi)
  refine ⟨rfl, ?_, fun hs => ?_⟩
  · rw [decodeTableWord, ofNat_encode_toNat, hd]
  · have hnext : nextCommand (s.withFetchWord 16 (encode i).toNat) = some (cmdWrite i) := by
      rw [nextCommand, State.withFetchWord_prog, State.withFetchWord_pc, setCommandAt_getElem?,
        ofNat_encode_toNat]
    have hrun : (s.withFetchWord 16 (encode i).toNat).halted = false := hs
    exact (step_of_next hrun hnext).trans (submit_of_ok hrun hd)

/-- Settles O48: both states are the reset values, with the host's buffer and list in the second. -/
theorem resetValues : Obligations.ResetValues := by
  intro cmds s t ht
  rcases ht with rfl | rfl
  · exact ⟨rfl, rfl, rfl, rfl, rfl, rfl, rfl, rfl, rfl, rfl, rfl, rfl, rfl, rfl, rfl⟩
  · exact ⟨rfl, rfl, rfl, rfl, rfl, rfl, rfl, rfl, rfl, rfl, rfl, rfl, rfl, rfl, rfl⟩

/-- Settles O49: the registers are those of reset, and the buffer meets its two clauses by hypothesis. -/
theorem resetMeetsInvariant : Obligations.ResetMeetsInvariant :=
  ⟨reset_inv, fun _ _ => rfl, fun _ _ hwf hbelow =>
    { reset_inv with pidxLe := Nat.zero_le _, bufWf := hwf, bufBelow := hbelow }⟩

/-- Settles O53. -/
theorem cmdRegister : Obligations.CmdRegister := by
  intro v s
  have hwrite : portWrite Config.blockBase 4 v s = submit v s :=
    portWrite_cmd v s (portDecode_blockBase_add 0x00)
  refine ⟨hwrite, portRead_of_reg (off := 0x00) s rfl, fun i hs hi hv => ?_⟩
  have hd : decodeCmd v = .ok i := by
    rw [hv]
    exact (decodeCmd_cmdWrite i).trans (decodeWord_encode hi)
  exact hwrite.trans (submit_of_ok hs hd)

end Sys2Proof.Machine

/-! ### The pack buffer's contents decide nothing (R51) -/

namespace Sys2Proof.Machine

section
variable {s u : State} {i : Instr}

/-- A command that passes its checks is executed to its end. -/
theorem Completes.exec_eq (h : Completes s i u) (hs : s.halted = false) : exec i s = complete u := by
  cases h with
  | nop => exact exec_nop hs
  | ldm b => exact exec_ldm hs b
  | ldl b => exact exec_ldl hs b
  | decw ready => exact (exec_decw hs _).trans (decodePair_of_ready _ ready)
  | decc row ready => exact (exec_decc hs row).trans (decodePair_of_ready _ ready)
  | fail => exact exec_fail hs
  | outd reading => exact exec_outd hs reading
  | outh reading => exact exec_outh hs reading
  | pack reading fits => exact exec_pack hs reading fits
  | pclr => exact exec_pclr hs

/-- A command that fails one of its checks takes that check's fault. -/
theorem Faults.exec_eq {code : FaultCode} (h : Faults s i code) (hs : s.halted = false) :
    exec i s = raiseFault code (encode i) s := by
  cases h with
  | decw unwritten => exact (exec_decw hs _).trans (decodePair_of_unwritten _ unwritten)
  | decc row unwritten => exact (exec_decc hs row).trans (decodePair_of_unwritten _ unwritten)
  | deccNoRow noRow => exact exec_decc_noRow hs noRow
  | outd noReading => exact exec_outd_noReading hs noReading
  | outh noReading => exact exec_outh_noReading hs noReading
  | packNoReading noReading => exact exec_pack_noReading hs noReading
  | packOverflow reading full => exact exec_pack_full hs reading full

end

/-- `LeftAlike s m t t'`: the states t, made from s, and t', made from s with the buffer m, differ in the
buffer alone, and at each index either both hold the same byte or both hold their old byte. -/
def LeftAlike (s : State) (m : Memory) (t t' : State) : Prop :=
  t' = { t with packBuf := t'.packBuf } ∧
  ∀ a, readBuffer t' a = readBuffer t a ∨
    (readBuffer t a = readBuffer s a ∧ readBuffer t' a = Memory.read m a)

section
variable {s t t' u : State} {m : Memory} {i : Instr}

/-- What writes no byte leaves both buffers as they were. -/
theorem LeftAlike.of_packBuf_eq (h : t.packBuf = s.packBuf) : LeftAlike s m t { t with packBuf := m } :=
  ⟨rfl, fun a => .inr ⟨congrArg (Memory.read · a) h, rfl⟩⟩

/-- PACK writes the same two bytes at the same two indices in both. -/
theorem LeftAlike.packReading (s : State) (m : Memory) :
    LeftAlike s m s.packReading (State.packReading { s with packBuf := m }) := by
  refine ⟨rfl, fun a => ?_⟩
  by_cases hhi : a = packIndex s
  · subst hhi
    exact .inl ((readBuffer_packReading_hi _).trans (readBuffer_packReading_hi s).symm)
  · by_cases hlo : a = packIndex s + 1
    · subst hlo
      exact .inl ((readBuffer_packReading_lo _).trans (readBuffer_packReading_lo s).symm)
    · exact .inr ⟨readBuffer_packReading_other s hhi hlo, readBuffer_packReading_other _ hhi hlo⟩

theorem LeftAlike.advance (h : LeftAlike s m t t') : LeftAlike s m t.advance t'.advance :=
  ⟨congrArg State.advance h.1, h.2⟩

/-- The checks a command passes read no byte of the buffer, and what it makes differs in the buffer alone. -/
theorem Completes.withPackBuf (h : Completes s i u) (m : Memory) :
    ∃ u', Completes { s with packBuf := m } i u' ∧ LeftAlike s m u u' := by
  cases h with
  | nop => exact ⟨_, .nop, .of_packBuf_eq rfl⟩
  | ldm b => exact ⟨_, .ldm b, .of_packBuf_eq rfl⟩
  | ldl b => exact ⟨_, .ldl b, .of_packBuf_eq rfl⟩
  | decw ready => exact ⟨_, .decw ready, .of_packBuf_eq rfl⟩
  | decc row ready => exact ⟨_, .decc row ready, .of_packBuf_eq rfl⟩
  | fail => exact ⟨_, .fail, .of_packBuf_eq rfl⟩
  | outd reading => exact ⟨_, .outd reading, .of_packBuf_eq rfl⟩
  | outh reading => exact ⟨_, .outh reading, .of_packBuf_eq rfl⟩
  | pack reading fits => exact ⟨_, .pack reading fits, .packReading s m⟩
  | pclr => exact ⟨_, .pclr, .of_packBuf_eq rfl⟩

/-- The checks a command fails read no byte of the buffer. -/
theorem Faults.withPackBuf {code : FaultCode} (h : Faults s i code) (m : Memory) :
    Faults { s with packBuf := m } i code := by
  cases h with
  | decw unwritten => exact .decw unwritten
  | decc row unwritten => exact .decc row unwritten
  | deccNoRow noRow => exact .deccNoRow noRow
  | outd noReading => exact .outd noReading
  | outh noReading => exact .outh noReading
  | packNoReading noReading => exact .packNoReading noReading
  | packOverflow reading full => exact .packOverflow reading full

/-- A CMD write to a running block leaves it alike whatever the buffer holds. -/
theorem submit_withPackBuf {v : PortValue} (hs : s.halted = false) (h : submit v s = .next t)
    (m : Memory) : ∃ t', submit v { s with packBuf := m } = .next t' ∧ LeftAlike s m t t' := by
  have hs' : State.halted { s with packBuf := m } = false := hs
  rcases submit_running v hs with ⟨r, hd, he⟩ | ⟨i, u, hd, hc, he⟩ | ⟨i, code, hd, hf, he⟩
  · obtain rfl := raiseFault_next.mp (he.symm.trans h)
    exact ⟨_, submit_of_illegal hs' hd, .of_packBuf_eq rfl⟩
  · obtain rfl := complete_next.mp (he.symm.trans h)
    obtain ⟨u', hc', halike⟩ := hc.withPackBuf m
    exact ⟨_, (submit_of_ok hs' hd).trans (hc'.exec_eq hs'), halike.advance⟩
  · obtain rfl := raiseFault_next.mp (he.symm.trans h)
    exact ⟨_, (submit_of_ok hs' hd).trans ((hf.withPackBuf m).exec_eq hs'), .of_packBuf_eq rfl⟩

end

/-- Settles O52: neither the stops of a step nor its CMD write read the buffer. -/
theorem bufferContentsNeverMatter : Obligations.BufferContentsNeverMatter := by
  intro s m
  rcases step_answers s with ⟨hs, he⟩ | ⟨hs, hpc, he⟩ | ⟨hs, hpc, t, he⟩
  · have he' : step { s with packBuf := m } = .fault .halted := step_of_halted hs
    simp [he, he']
  · have he' : step { s with packBuf := m } = .refused .noCommand :=
      step_of_over hs (nextCommand_eq_none_iff.mpr hpc)
    simp [he, he']
  · obtain ⟨_, v, hv, hsub⟩ := step_next he
    obtain ⟨t', hsub', halike⟩ := submit_withPackBuf hs hsub m
    have hs' : State.halted { s with packBuf := m } = false := hs
    have he' : step { s with packBuf := m } = .next t' := (step_of_next hs' hv).trans hsub'
    rw [he]
    refine ⟨nofun, nofun, fun w hw => ?_⟩
    cases hw
    exact ⟨t', he', halike⟩

end Sys2Proof.Machine

/-! ### Byte images of commands (R64) -/

namespace Sys2Proof

/-- A word is its high byte above its low byte. -/
theorem word_bytes_append (w : Word) : w.extractLsb' 8 8 ++ w.extractLsb' 0 8 = w :=
  (BitVec.extractLsb'_append_extractLsb'_eq_extractLsb' rfl).trans BitVec.extractLsb'_eq_self

/-- An image decodes to its first command and the image of the rest. -/
theorem decodeBytes_encodeBytes_cons {i : Instr} (is : List Instr) (h : i.wellFormed = true) :
    decodeBytes (encodeBytes (i :: is)) = .ok (i, encodeBytes is) := by
  simp [encodeBytes, decodeBytes, word_bytes_append, decodeWord_encode h]

/-- Settles O2. -/
theorem commandImagesRoundTrip : Obligations.CommandImagesRoundTrip := fun i is h =>
  ⟨rfl, decodeBytes_encodeBytes_cons is h, (decodeCmd_cmdWrite i).trans (decodeWord_encode h)⟩

end Sys2Proof

namespace Sys2Proof.Machine

/-! ### The tokens of the formatter (R141 to R143) -/

theorem decDigit_toNat {d : Nat} (h : d < 10) : (decDigit d).toNat = 0x30 + d := by
  rw [decDigit, BitVec.toNat_ofNat]
  omega

/-- Every character of a numeral is an ASCII decimal digit. -/
theorem mem_digitsUpTo_bounds {fuel m : Nat} {b : Byte} (h : b ∈ digitsUpTo fuel m) :
    0x30 ≤ b.toNat ∧ b.toNat ≤ 0x39 := by
  have hdigit : ∀ {d : Nat}, d < 10 → 0x30 ≤ (decDigit d).toNat ∧ (decDigit d).toNat ≤ 0x39 := by
    intro d hd
    rw [decDigit_toNat hd]
    omega
  induction fuel generalizing m with
  | zero => cases h
  | succ fuel ih =>
    rw [digitsUpTo] at h
    split at h
    · rename_i hm
      rw [List.mem_singleton.mp h]
      exact hdigit hm
    · rcases List.mem_append.mp h with hhead | hlast
      · exact ih hhead
      · rw [List.mem_singleton.mp hlast]
        exact hdigit (Nat.mod_lt _ (by decide))

/-- A number below 10^k has at most k digits. -/
theorem digitsUpTo_length_le {fuel m k : Nat} (hk : 0 < k) (hm : m < 10 ^ k) :
    (digitsUpTo fuel m).length ≤ k := by
  induction fuel generalizing m k with
  | zero => exact Nat.zero_le k
  | succ fuel ih =>
    rw [digitsUpTo]
    split
    · exact hk
    · obtain ⟨k, rfl⟩ := Nat.exists_eq_succ_of_ne_zero hk.ne'
      have hk' : 0 < k := Nat.pos_of_ne_zero (by rintro rfl; omega)
      have hm' : m / 10 < 10 ^ k := Nat.div_lt_of_lt_mul (by rwa [pow_succ'] at hm)
      rw [List.length_append, List.length_singleton]
      exact Nat.succ_le_succ (ih hk' hm')

theorem digits_length_pos (m : Nat) : 1 ≤ (digits m).length := by
  rw [digits, digitsUpTo]
  split <;> simp

/-- A decimal token in the 16-bit range has 1 to 6 characters (R142). -/
theorem dec_length {v : Int} (h : -32768 ≤ v ∧ v ≤ 32767) :
    1 ≤ (dec v).length ∧ (dec v).length ≤ 6 := by
  have hdigits {m : Nat} (hm : m ≤ 32768) : (digits m).length ≤ 5 :=
    digitsUpTo_length_le (by decide) (by omega)
  rw [dec]
  split
  · have := hdigits (m := (-v).toNat) (by omega)
    rw [List.length_cons]
    omega
  · exact ⟨digits_length_pos _, (hdigits (by omega)).trans (by decide)⟩

theorem comma_notMem_digits (m : Nat) : comma ∉ digits m := fun h =>
  absurd (mem_digitsUpTo_bounds h).1 (by decide)

theorem comma_notMem_dec (v : Int) : comma ∉ dec v := by
  rw [dec]
  split
  · exact List.not_mem_cons_of_ne_of_not_mem (by decide) (comma_notMem_digits _)
  · exact comma_notMem_digits _

theorem comma_ne_hexDigit (d : BitVec 4) : comma ≠ hexDigit d := by
  revert d
  decide

theorem comma_notMem_hex2 (b : Byte) : comma ∉ hex2 b := by
  simp [hex2, comma_ne_hexDigit, show comma ≠ 0x30#8 by decide, show comma ≠ 0x78#8 by decide]

theorem comma_notMem_placeholder : comma ∉ placeholder := by decide

section
variable {s : State}

theorem decToken_length (h : s.Inv) (hr : s.rstat ≠ .none) :
    1 ≤ (decToken s).length ∧ (decToken s).length ≤ 6 := by
  rw [decToken]
  cases hs : s.rstat with
  | none => exact absurd hs hr
  | ok => exact dec_length (h.okRange hs)
  | failed => exact (by decide : 1 ≤ placeholder.length ∧ placeholder.length ≤ 6)

theorem comma_notMem_decToken (s : State) : comma ∉ decToken s := by
  rw [decToken]
  cases s.rstat with
  | failed => exact comma_notMem_placeholder
  | ok | none => exact comma_notMem_dec _

theorem hexToken_length (s : State) :
    (hexToken s).length = if s.rstat = .failed then 4 else 9 := by
  rw [hexToken]
  cases s.rstat <;> rfl

theorem comma_notMem_hexToken (s : State) : comma ∉ hexToken s := by
  rw [hexToken]
  cases s.rstat with
  | failed => exact comma_notMem_placeholder
  | ok | none => simp [comma_notMem_hex2, show comma ≠ space by decide]

end

/-- Settles O36: with a reading OUTD and OUTH complete, each with its token and a comma. -/
theorem unitsAreTokensEndedByComma : Obligations.UnitsAreTokensEndedByComma := by
  intro s h hs hr
  obtain ⟨hpos, hle⟩ := decToken_length h hr
  exact ⟨⟨_, decToken s, exec_outd hs hr, (List.append_assoc ..).symm, hpos, hle,
      comma_notMem_decToken s⟩,
    ⟨_, hexToken s, exec_outh hs hr, (List.append_assoc ..).symm, hexToken_length s,
      comma_notMem_hexToken s⟩⟩

/-! ### The frame of the formatter's commands -/

theorem exec_of_halted (i : Instr) {s : State} (hs : s.halted = true) : exec i s = .next s := by
  cases i <;> exact if_pos hs

/-- The next state of a command: the same where the block is halted; otherwise the completed command's with
pc advanced, or that of fault entry. -/
theorem exec_next {i : Instr} {s t : State} (h : exec i s = .next t) :
    (s.halted = true ∧ t = s) ∨
    (s.halted = false ∧ ∃ u, Completes s i u ∧ t = u.advance) ∨
    (s.halted = false ∧ ∃ code, Faults s i code ∧ t = s.faultEntry code (encode i)) := by
  cases hs : s.halted with
  | true =>
    rw [exec_of_halted i hs] at h
    cases h
    exact .inl ⟨rfl, rfl⟩
  | false =>
    rcases exec_running hs i with ⟨u, hc, he⟩ | ⟨code, hf, he⟩
    · exact .inr (.inl ⟨rfl, u, hc, complete_next.mp (he.symm.trans h)⟩)
    · exact .inr (.inr ⟨rfl, code, hf, raiseFault_next.mp (he.symm.trans h)⟩)

section
variable (s : State) (a : Nat)

@[simp] theorem readBuffer_advance : readBuffer s.advance a = readBuffer s a := rfl

@[simp] theorem readBuffer_emit (bs : List Byte) : readBuffer (s.emit bs) a = readBuffer s a := rfl

@[simp] theorem readBuffer_setPidx (p : BitVec 16) : readBuffer (s.setPidx p) a = readBuffer s a := rfl

@[simp] theorem readBuffer_faultEntry (code : FaultCode) (cmd : Word) :
    readBuffer (s.faultEntry code cmd) a = readBuffer s a := rfl

end

/-- Settles O44: nothing changes where the block is halted, a fault changes the fault registers alone, and a
completed command is one of the four. -/
theorem formatterFrame : Obligations.FormatterFrame := by
  intro i s t hi h
  rcases exec_next h with ⟨_, rfl⟩ | ⟨_, u, hc, rfl⟩ | ⟨hs, code, hf, rfl⟩
  · simp
  · rcases hi with rfl | rfl | rfl | rfl
    · cases hc with
      | outd _ => simp
    · cases hc with
      | outh _ => simp
    · cases hc with
      | pack _ _ => simpa using fun a => readBuffer_packReading_other s (a := a)
    · cases hc with
      | pclr => simp
  · have hpclr : i ≠ .pclr := by
      rintro rfl
      cases hf
    simp [hs, hpclr]

end Sys2Proof.Machine

/-! ### The decoder accepts exactly the encodings (R70 to R80) -/

namespace Sys2Proof

open Laws.OpcodeField (opcode)

theorem widthOfCode_eq_some {f : BitVec 4} {n : Width} (h : widthOfCode f = some n) : f = widthCode n := by
  unfold widthOfCode at h
  split at h <;> cases h <;> rfl

theorem dieOfCode_eq_some {b : BitVec 2} {d : Die} (h : dieOfCode b = some d) : b = dieCode d := by
  unfold dieOfCode at h
  split at h <;> cases h <;> rfl

@[simp] theorem channelCode_channelOfCode (b : BitVec 2) : channelCode (channelOfCode b) = b := by
  revert b
  decide

theorem decodeNoOperand_ok {f : BitVec 4} {i : Byte} {c a : Instr} (h : decodeNoOperand f i c = .ok a) :
    f = 0#4 ∧ i = 0#8 ∧ a = c := by
  unfold decodeNoOperand at h
  split_ifs at h with hf hi
  cases h
  exact ⟨not_ne_iff.mp hf, not_ne_iff.mp hi, rfl⟩

theorem decodeByteOperand_ok {f : BitVec 4} {i : Byte} {mk : Byte → Instr} {a : Instr}
    (h : decodeByteOperand f i mk = .ok a) : f = 0#4 ∧ a = mk i := by
  unfold decodeByteOperand at h
  split_ifs at h with hf
  cases h
  exact ⟨not_ne_iff.mp hf, rfl⟩

theorem decodeWidthOperand_ok {f : BitVec 4} {i : Byte} {a : Instr} (h : decodeWidthOperand f i = .ok a) :
    ∃ n, f = widthCode n ∧ i = 0#8 ∧ a = .decw n := by
  unfold decodeWidthOperand at h
  split_ifs at h with hi
  split at h
  · rename_i n hn
    cases h
    exact ⟨n, widthOfCode_eq_some hn, not_ne_iff.mp hi, rfl⟩
  · cases h

theorem decodeChannelOperand_ok {f : BitVec 4} {i : Byte} {a : Instr}
    (h : decodeChannelOperand f i = .ok a) :
    ∃ d c, (layoutWidth d c).isSome = true ∧ f = dieCode d ++ channelCode c ∧ i = 0#8 ∧
      a = .decc d c := by
  unfold decodeChannelOperand at h
  split_ifs at h with hi
  split at h
  · cases h
  · rename_i d hd
    split at h
    · cases h
    · rename_i n row
      cases h
      refine ⟨d, _, Option.isSome_of_eq_some row, ?_, not_ne_iff.mp hi, rfl⟩
      have hf : f.extractLsb' 2 2 ++ f.extractLsb' 0 2 = f :=
        (BitVec.extractLsb'_append_extractLsb'_eq_extractLsb' rfl).trans BitVec.extractLsb'_eq_self
      rw [channelCode_channelOfCode, ← dieOfCode_eq_some hd, hf]

/-- What the opcode map accepts is well-formed and has these three fields. -/
theorem decodeFields_ok {op f : BitVec 4} {i : Byte} {a : Instr} (h : decodeFields op f i = .ok a) :
    a.wellFormed = true ∧ encode a = mkWord op f i := by
  unfold decodeFields at h
  split at h
  case h_2 | h_3 =>
    obtain ⟨rfl, rfl⟩ := decodeByteOperand_ok h
    exact ⟨rfl, rfl⟩
  case h_4 =>
    obtain ⟨n, rfl, rfl, rfl⟩ := decodeWidthOperand_ok h
    exact ⟨rfl, rfl⟩
  case h_5 =>
    obtain ⟨d, c, row, rfl, rfl, rfl⟩ := decodeChannelOperand_ok h
    exact ⟨row, rfl⟩
  case h_11 => cases h
  all_goals
    obtain ⟨rfl, rfl, rfl⟩ := decodeNoOperand_ok h
    exact ⟨rfl, rfl⟩

theorem decodeWord_eq_ok_iff {w : Word} {i : Instr} :
    decodeWord w = .ok i ↔ i.wellFormed = true ∧ encode i = w := by
  constructor
  · intro h
    obtain ⟨hwf, hw⟩ := decodeFields_ok h
    exact ⟨hwf, hw.trans (mkWord_fields w)⟩
  · rintro ⟨hwf, rfl⟩
    exact decodeWord_encode hwf

/-- Settles O1. -/
theorem decodeAcceptsExactlyEncodings : Obligations.DecodeAcceptsExactlyEncodings := fun _ _ =>
  decodeWord_eq_ok_iff

/-! ### The 535 legal words (R80) -/

theorem encode_injOn {i j : Instr} (hi : i.wellFormed = true) (hj : j.wellFormed = true)
    (h : encode i = encode j) : i = j := by
  have hdecode : Decoded.ok i = Decoded.ok j :=
    (decodeWord_encode hi).symm.trans (h ▸ decodeWord_encode hj)
  cases hdecode
  rfl

/-- Every byte operand, once. -/
def allBytes : List Byte := (List.finRange 256).map BitVec.ofFin

/-- The operands of DECW. -/
def allWidths : List Width := [.w8, .w12, .w13, .w14, .w15, .w16]

/-- The operands of DECC: the rows of the layout table (R33). -/
def layoutRows : List (Die × Channel) :=
  [(.accelerometer, .x), (.accelerometer, .y), (.accelerometer, .z), (.accelerometer, .aux),
   (.gyroscope, .x), (.gyroscope, .y), (.gyroscope, .z),
   (.magnetometer, .x), (.magnetometer, .y), (.magnetometer, .z), (.magnetometer, .aux)]

/-- The commands with no operand. -/
def bareCommands : List Instr := [.nop, .fail, .outd, .outh, .pack, .pclr]

/-- Every command, once. -/
def allCommands : List Instr :=
  bareCommands ++ allBytes.map .ldm ++ allBytes.map .ldl ++ allWidths.map .decw ++
    layoutRows.map fun r => .decc r.1 r.2

theorem mem_allBytes (b : Byte) : b ∈ allBytes :=
  List.mem_map.mpr ⟨b.toFin, List.mem_finRange _, rfl⟩

theorem nodup_allBytes : allBytes.Nodup :=
  (List.nodup_finRange 256).map fun _ _ h => congrArg BitVec.toFin h

theorem length_allBytes : allBytes.length = 256 := by
  rw [allBytes, List.length_map, List.length_finRange]

theorem mem_allWidths (n : Width) : n ∈ allWidths := by cases n <;> decide

theorem mem_layoutRows_iff {d : Die} {c : Channel} :
    (d, c) ∈ layoutRows ↔ (layoutWidth d c).isSome = true := by
  cases d <;> cases c <;> decide

theorem mem_allCommands_iff {i : Instr} : i ∈ allCommands ↔ i.wellFormed = true := by
  cases i with
  | ldm b | ldl b => simp [allCommands, bareCommands, mem_allBytes, Instr.wellFormed]
  | decw n => simp [allCommands, bareCommands, mem_allWidths, Instr.wellFormed]
  | decc d c => simp [allCommands, bareCommands, mem_layoutRows_iff, Instr.wellFormed]
  | nop | fail | outd | outh | pack | pclr => simp [allCommands, bareCommands, Instr.wellFormed]

theorem length_allCommands : allCommands.length = 535 := by
  simp [allCommands, bareCommands, length_allBytes, allWidths, layoutRows]

theorem nodup_allCommands : allCommands.Nodup := by
  have hldm : (allBytes.map Instr.ldm).Nodup := nodup_allBytes.map fun _ _ => Instr.ldm.inj
  have hldl : (allBytes.map Instr.ldl).Nodup := nodup_allBytes.map fun _ _ => Instr.ldl.inj
  have hbare : bareCommands.Nodup := by decide
  have hdecw : (allWidths.map Instr.decw).Nodup := by decide
  have hdecc : (layoutRows.map fun r => Instr.decc r.1 r.2).Nodup := by decide
  refine (((hbare.append hldm ?_).append hldl ?_).append hdecw ?_).append hdecc ?_
  all_goals
    -- lists of different constructors share no command
    simp only [List.disjoint_left]
    grind [bareCommands]

/-- Settles O3: the words of the commands, different since the decoder tells them apart. -/
theorem legalWordsNumber535 : Obligations.LegalWordsNumber535 := by
  refine ⟨allCommands.map encode, ?_, by rw [List.length_map, length_allCommands], fun w => ?_⟩
  · exact nodup_allCommands.map_on fun i hi j hj =>
      encode_injOn (mem_allCommands_iff.mp hi) (mem_allCommands_iff.mp hj)
  · simp only [List.mem_map, mem_allCommands_iff, decodeWord_eq_ok_iff]

/-! ### The fields of a command's word (R73, R75) -/

/-- Bits appended at the same widths are equal in both parts. -/
theorem append_inj {m n : Nat} {a a' : BitVec m} {b b' : BitVec n} (h : a ++ b = a' ++ b') :
    a = a' ∧ b = b' := by
  have hleft := congrArg (BitVec.extractLsb' n m) h
  have hright := congrArg (BitVec.extractLsb' 0 n) h
  rw [BitVec.extractLsb'_append_eq_left, BitVec.extractLsb'_append_eq_left] at hleft
  rw [BitVec.extractLsb'_append_eq_right, BitVec.extractLsb'_append_eq_right] at hright
  exact ⟨hleft, hright⟩

theorem opField_encode (i : Instr) : opField (encode i) = opcode i := by
  cases i <;> exact opField_mkWord _ _ _

theorem opcode_lt (i : Instr) : (opcode i).toNat < 0xA := by
  cases i <;> simp [opcode]

/-- Only LDM and LDL have an operand in I. -/
theorem iField_encode {i : Instr} (hm : opcode i ≠ 0x1#4) (hl : opcode i ≠ 0x2#4) :
    iField (encode i) = 0#8 := by
  cases i with
  | ldm b => exact absurd rfl hm
  | ldl b => exact absurd rfl hl
  | nop | decw | decc | fail | outd | outh | pack | pclr => exact iField_mkWord _ _ _

/-- Only DECW and DECC have an operand in F. -/
theorem fField_encode {i : Instr} (hw : opcode i ≠ 0x3#4) (hc : opcode i ≠ 0x4#4) :
    fField (encode i) = 0#4 := by
  cases i with
  | decw n => exact absurd rfl hw
  | decc d c => exact absurd rfl hc
  | nop | ldm | ldl | fail | outd | outh | pack | pclr => exact fField_mkWord _ _ _

theorem eq_decw_of_opcode {i : Instr} (h : opcode i = 0x3#4) : ∃ n, i = .decw n := by
  cases i with
  | decw n => exact ⟨n, rfl⟩
  | nop | ldm | ldl | decc | fail | outd | outh | pack | pclr => simp [opcode] at h

theorem eq_decc_of_opcode {i : Instr} (h : opcode i = 0x4#4) : ∃ d c, i = .decc d c := by
  cases i with
  | decc d c => exact ⟨d, c, rfl⟩
  | nop | ldm | ldl | decw | fail | outd | outh | pack | pclr => simp [opcode] at h

end Sys2Proof

/-! ### Illegal CMD writes (R71, R74 to R77) -/

namespace Sys2Proof.Machine

open Laws.OpcodeField (opcode)

/-- A CMD write with bits [31:16] zero is decoded as its word (R78). -/
theorem decodeCmd_of_upper_zero {v : PortValue} (h : upperField v = 0#16) :
    decodeCmd v = decodeWord (lowerField v) :=
  if_neg (not_not_intro h)

theorem takesIllegal_of_illegal {v : PortValue} {r : Illegal} {s : State} (hs : s.halted = false)
    (hd : decodeCmd v = .illegal r) : s.takesIllegal v :=
  submit_of_illegal hs hd

/-- Settles O5. -/
theorem upperCommandBitsAreIllegal : Obligations.UpperCommandBitsAreIllegal := fun _ _ hs hv =>
  takesIllegal_of_illegal hs (decodeCmd_of_upper_ne hv)

/-- Writes of an opcode take ILLEGAL_CMD on every choice of F and I that no command of the opcode has. -/
theorem illegalWhere_of_noCommand {op : BitVec 4} {bad : BitVec 4 → Byte → Prop}
    (h : ∀ i : Instr, i.wellFormed = true → opcode i = op → ¬ bad (fField (encode i)) (iField (encode i))) :
    illegalWhere op bad := by
  intro v s hs hupper hop hbad
  have hlower : decodeCmd v = decodeWord (lowerField v) := decodeCmd_of_upper_zero hupper
  have hfield : ∀ k n : Nat, k + n ≤ 16 → (lowerField v).extractLsb' k n = v.extractLsb' k n :=
    fun _ _ hk => BitVec.extractLsb'_extractLsb'_of_le hk
  cases hd : decodeWord (lowerField v) with
  | illegal r => exact takesIllegal_of_illegal hs (hlower.trans hd)
  | ok i =>
    obtain ⟨hwf, hw⟩ := decodeWord_eq_ok_iff.mp hd
    refine absurd ?_ (h i hwf ?_)
    · rwa [hw, fField, iField, hfield 8 4 (by decide), hfield 0 8 (by decide)]
    · rw [← opField_encode, hw, opField, hfield 12 4 (by decide), hop]

/-- Settles O6: no command has such an opcode. -/
theorem reservedOpcodesAreIllegal : Obligations.ReservedOpcodesAreIllegal := fun _ hop =>
  illegalWhere_of_noCommand fun i _ hi => absurd (hi ▸ opcode_lt i) (Nat.not_lt.mpr hop)

/-- Settles O7: the opcodes of the first list are not those of LDM and LDL, those of the second not those of
DECW and DECC. -/
theorem mustBeZeroFieldsAreIllegal : Obligations.MustBeZeroFieldsAreIllegal := by
  constructor
  · intro op hop
    have hne : op ≠ 0x1#4 ∧ op ≠ 0x2#4 := by
      revert op
      decide
    refine illegalWhere_of_noCommand fun i _ hi => not_not_intro ?_
    subst hi
    exact iField_encode hne.1 hne.2
  · intro op hop
    have hne : op ≠ 0x3#4 ∧ op ≠ 0x4#4 := by
      revert op
      decide
    refine illegalWhere_of_noCommand fun i _ hi => not_not_intro ?_
    subst hi
    exact fField_encode hne.1 hne.2

/-- Settles O8. -/
theorem widthCodesOfDecw : Obligations.WidthCodesOfDecw := by
  constructor
  · intro w hop hi hf
    have hcode : ∀ f ∈ [0x0#4, 0x4#4, 0x5#4, 0x6#4, 0x7#4, 0x8#4],
        ∃ n ∈ allWidths, widthCode n = f ∧ n.bits = f.toNat + 8 := by decide
    obtain ⟨n, _, hn, hbits⟩ := hcode _ hf
    refine ⟨n, decodeWord_eq_ok_iff.mpr ⟨rfl, ?_⟩, hbits⟩
    rw [encode, hn, ← hop, ← hi]
    exact mkWord_fields w
  · refine illegalWhere_of_noCommand fun i _ hi => not_not_intro ?_
    obtain ⟨n, rfl⟩ := eq_decw_of_opcode hi
    rw [encode, fField_mkWord]
    cases n <;> decide

/-- Settles O9. -/
theorem channelCodesOfDecc : Obligations.ChannelCodesOfDecc := by
  constructor
  · intro w hop hi hf
    have hcode : ∀ f : BitVec 4, f ∉ [0x7#4, 0xC#4, 0xD#4, 0xE#4, 0xF#4] →
        ∃ r ∈ layoutRows, dieCode r.1 ++ channelCode r.2 = f := by decide
    obtain ⟨⟨d, c⟩, hrow, hdc⟩ := hcode _ hf
    have hsplit : w.extractLsb' 10 2 ++ w.extractLsb' 8 2 = w.extractLsb' 8 4 :=
      BitVec.extractLsb'_append_extractLsb'_eq_extractLsb' rfl
    obtain ⟨hdie, hchannel⟩ := append_inj (hdc.trans hsplit.symm)
    refine ⟨d, c, decodeWord_eq_ok_iff.mpr ⟨mem_layoutRows_iff.mp hrow, ?_⟩, hdie, hchannel⟩
    rw [encode, hdc, ← hop, ← hi]
    exact mkWord_fields w
  · refine illegalWhere_of_noCommand fun i hwf hi => ?_
    obtain ⟨d, c, rfl⟩ := eq_decc_of_opcode hi
    have hlegal : ∀ r ∈ layoutRows,
        dieCode r.1 ++ channelCode r.2 ∉ [0x7#4, 0xC#4, 0xD#4, 0xE#4, 0xF#4] := by decide
    rw [encode, fField_mkWord]
    exact hlegal (d, c) (mem_layoutRows_iff.mpr hwf)

/-- Settles O29: the term has no row, and its word holds no command. -/
theorem deccOfNoRowIsIllegal : Obligations.DeccOfNoRowIsIllegal := by
  intro s hs
  have hexec : exec (.decc .gyroscope .aux) s = raiseFault .illegalCmd 0x4700#16 s :=
    exec_decc_noRow hs rfl
  have hword : decodeCmd 0x00004700#32 = .illegal .reservedChannel := by decide
  exact ⟨hexec, (submit_of_illegal hs hword).trans hexec.symm⟩

/-- Settles O4, word by word. -/
theorem referenceWordsDecode : Obligations.ReferenceWordsDecode :=
  ⟨rfl, rfl, rfl, rfl, rfl, rfl, rfl, rfl, rfl, rfl, rfl, rfl, rfl⟩

end Sys2Proof.Machine

/-! ### The assembler (R81, R82) -/

namespace Sys2Proof.Machine

/-- A channel name that R81 lists for a die is a row of the layout table (R33). -/
theorem channelOperand_isRow {d : Die} {cs : List Char} {c : Channel} (h : channelOperand d cs = some c) :
    (layoutWidth d c).isSome = true := by
  unfold channelOperand at h
  cases d with
  | accelerometer | gyroscope | magnetometer =>
    dsimp only at h
    split_ifs at h <;> cases h <;> rfl

theorem plainMnemonics_wellFormed {m : List Char} {i : Instr} (h : plainMnemonics.lookup m = some i) :
    i.wellFormed = true := by
  have hplain : ∀ p ∈ plainMnemonics, p.2.wellFormed = true := by decide
  obtain ⟨_, _, heq, _⟩ := List.lookup_eq_some_iff.mp h
  exact hplain (m, i) (heq ▸ by simp)

theorem assembleOne_wellFormed {m a : List Char} {is : List Instr} (h : assembleOne m a = some is) :
    ∀ i ∈ is, i.wellFormed = true := by
  unfold assembleOne at h
  split_ifs at h
  all_goals
    obtain ⟨x, _, rfl⟩ := Option.map_eq_some_iff.mp h
    simp [Instr.wellFormed]

theorem assembleTwo_wellFormed {m a b : List Char} {is : List Instr} (h : assembleTwo m a b = some is) :
    ∀ i ∈ is, i.wellFormed = true := by
  unfold assembleTwo at h
  split_ifs at h
  · obtain ⟨d, _, h⟩ := Option.bind_eq_some_iff.mp h
    obtain ⟨c, hc, rfl⟩ := Option.map_eq_some_iff.mp h
    simpa [Instr.wellFormed] using channelOperand_isRow hc
  · obtain ⟨x, _, h⟩ := Option.bind_eq_some_iff.mp h
    obtain ⟨y, _, rfl⟩ := Option.map_eq_some_iff.mp h
    simp [Pseudo.expand, Instr.wellFormed]

theorem assembleRead_wellFormed {a b m : List Char} {l : Option (List Char)} {is : List Instr}
    (h : assembleRead a b m l = some is) : ∀ i ∈ is, i.wellFormed = true := by
  obtain ⟨d, _, h⟩ := Option.bind_eq_some_iff.mp h
  obtain ⟨c, hc, h⟩ := Option.bind_eq_some_iff.mp h
  obtain ⟨x, _, h⟩ := Option.bind_eq_some_iff.mp h
  cases l with
  | none =>
    obtain ⟨_, h⟩ := Option.ite_none_right_eq_some.mp h
    cases h
    simp [Pseudo.expand, Instr.wellFormed, layoutWidth]
  | some l =>
    obtain ⟨y, _, h⟩ := Option.bind_eq_some_iff.mp h
    obtain ⟨_, h⟩ := Option.ite_none_right_eq_some.mp h
    cases h
    simpa [Pseudo.expand, Instr.wellFormed] using channelOperand_isRow hc

theorem assembleTokens_wellFormed {ts : List Token} {is : List Instr} (h : assembleTokens ts = some is) :
    ∀ i ∈ is, i.wellFormed = true := by
  unfold assembleTokens at h
  split at h
  case h_1 =>
    cases h
    simp
  case h_2 m =>
    split_ifs at h
    · cases h
      simp [Pseudo.expand, Instr.wellFormed]
    · obtain ⟨i, hi, rfl⟩ := Option.map_eq_some_iff.mp h
      simpa using plainMnemonics_wellFormed hi
  case h_3 => exact assembleOne_wellFormed h
  case h_4 => exact assembleTwo_wellFormed h
  case h_5 | h_6 =>
    obtain ⟨_, h⟩ := Option.ite_none_right_eq_some.mp h
    exact assembleRead_wellFormed h
  case h_7 => cases h

/-- Settles O60: every command of an accepted line is well-formed, and so its word decodes to it. -/
theorem assemblerYieldsOnlyLegalCommands : Obligations.AssemblerYieldsOnlyLegalCommands :=
  fun _ _ h i hi => decodeWord_encode (assembleTokens_wellFormed h i hi)

/-- A character that a line's token takes as it stands. -/
def isPlainChar (c : Char) : Bool :=
  c ≠ ';' && c ≠ ',' && !isBlankChar c && decide (lowerChar c = c)

theorem tokensFrom_plain {acc cs : List Char} (h : cs.all isPlainChar = true) :
    tokensFrom acc cs = flushToken (cs.reverse ++ acc) := by
  induction cs generalizing acc with
  | nil => rfl
  | cons c cs ih =>
    rw [List.all_cons, Bool.and_eq_true] at h
    obtain ⟨hc, hcs⟩ := h
    simp only [isPlainChar, Bool.and_eq_true, decide_eq_true_eq, Bool.not_eq_true'] at hc
    obtain ⟨⟨⟨hsemi, hcomma⟩, hblank⟩, hlower⟩ := hc
    simp [tokensFrom, hsemi, hcomma, hblank, hlower, ih hcs]

theorem isPlainChar_hexChar {d : Nat} (h : d < 16) : isPlainChar (hexChar d) = true := by
  revert d
  decide

theorem hexValue_hexChar {d : Nat} (h : d < 16) : hexValue (hexChar d) = some d := by
  revert d
  decide

section
variable (b : Byte)

theorem byteText_plain : (byteText b).all isPlainChar = true := by
  have hhi : b.toNat / 16 < 16 := by omega
  have hlo : b.toNat % 16 < 16 := by omega
  have hzeroX : isPlainChar '0' = true ∧ isPlainChar 'x' = true := by decide
  simp [byteText, hzeroX, isPlainChar_hexChar hhi, isPlainChar_hexChar hlo]

theorem byteOperand_byteText : byteOperand (byteText b) = some b := by
  have hhi : b.toNat / 16 < 16 := by omega
  have hlo : b.toNat % 16 < 16 := by omega
  simp [byteOperand, byteText, hexValue_hexChar hhi, hexValue_hexChar hlo, Nat.div_add_mod']

/-- A byte operand is one token. -/
theorem tokensFrom_byteText : tokensFrom [] (byteText b) = [.word (byteText b)] := by
  rw [tokensFrom_plain (byteText_plain b)]
  simp [flushToken, byteText]

end

/-- Settles O59: the lines without a byte are finitely many, and those of LDM and LDL hold their byte's two
hex digits. -/
theorem assemblerReadsEveryCommand : Obligations.AssemblerReadsEveryCommand := by
  intro i hi
  cases i with
  | ldm b | ldl b =>
    change assembleTokens (.word _ :: tokensFrom [] (byteText b)) = _
    rw [tokensFrom_byteText, assembleTokens, assembleOne, byteOperand_byteText]
    rfl
  | decw n => cases n <;> rfl
  | decc d c =>
    have hlines : ∀ r ∈ layoutRows, assembleLine (asmText (.decc r.1 r.2)) = some [.decc r.1 r.2] := by
      decide
    exact hlines (d, c) (mem_layoutRows_iff.mpr hi)
  | nop | fail | outd | outh | pack | pclr => rfl

end Sys2Proof.Machine

/-! ### NOP, LDM and LDL (R100 to R103) -/

namespace Sys2Proof.Machine

/-- Two choices of fields that take ILLEGAL_CMD for an opcode are one. -/
theorem illegalWhere_or {op : BitVec 4} {p q : BitVec 4 → Byte → Prop} (hp : illegalWhere op p)
    (hq : illegalWhere op q) : illegalWhere op fun f i => p f i ∨ q f i := by
  intro v s hs hupper hop hbad
  rcases hbad with hbad | hbad
  · exact hp v s hs hupper hop hbad
  · exact hq v s hs hupper hop hbad

/-- Settles O16: the clauses of F and of I are those of O7. -/
theorem nopOnlyAdvancesPc : Obligations.NopOnlyAdvancesPc := by
  obtain ⟨nonzeroI, nonzeroF⟩ := mustBeZeroFieldsAreIllegal
  exact ⟨rfl, fun s hs => exec_nop hs, fun s hs => exec_of_halted .nop hs,
    illegalWhere_or (nonzeroF 0x0#4 (by decide)) (nonzeroI 0x0#4 (by decide))⟩

/-- Settles O17: an append of fields is their disjunction, and a nonzero F is illegal by O7. -/
theorem ldmLoadsRawMsb : Obligations.LdmLoadsRawMsb := by
  obtain ⟨-, nonzeroF⟩ := mustBeZeroFieldsAreIllegal
  exact ⟨fun b => BitVec.append_def (0x1#4 ++ 0x0#4) b, fun b s hs => exec_ldm hs b,
    nonzeroF 0x1#4 (by decide)⟩

/-- Settles O18: the two reasons of O17, at the opcode of LDL. -/
theorem ldlLoadsRawLsb : Obligations.LdlLoadsRawLsb := by
  obtain ⟨-, nonzeroF⟩ := mustBeZeroFieldsAreIllegal
  exact ⟨fun b => BitVec.append_def (0x2#4 ++ 0x0#4) b, fun b s hs => exec_ldl hs b,
    nonzeroF 0x2#4 (by decide)⟩

section
variable (s : State) (b : Byte) (a : Nat)

@[simp] theorem readBuffer_loadMsb : readBuffer (s.loadMsb b) a = readBuffer s a := rfl

@[simp] theorem readBuffer_loadLsb : readBuffer (s.loadLsb b) a = readBuffer s a := rfl

end

/-- Settles O42: nothing changes where the block is halted, a completed command is one of the three, and none
of the three takes a fault. -/
theorem rawInputFrame : Obligations.RawInputFrame := by
  intro i s t hi h
  rcases exec_next h with ⟨_, rfl⟩ | ⟨_, u, hc, rfl⟩ | ⟨_, code, hf, _⟩
  · simp
  · rcases hi with rfl | ⟨b, rfl⟩ | ⟨b, rfl⟩
    · cases hc with
      | nop => simp
    · cases hc with
      | ldm _ => simp
    · cases hc with
      | ldl _ => simp
  · rcases hi with rfl | ⟨b, rfl⟩ | ⟨b, rfl⟩ <;> cases hf

section
variable {s u t : State} {i j : Instr}

/-- A command list whose first command completes goes on from the state that it makes. -/
theorem Completes.execList_cons (h : Completes s i u) (hs : s.halted = false) (is : List Instr) :
    execList (i :: is) s = execList is u.advance := by
  rw [execList, h.exec_eq hs, complete]

/-- Two commands in a row that both complete. -/
theorem Completes.execList_pair (hi : Completes s i u) (hj : Completes u.advance j t)
    (hs : s.halted = false) : execList [i, j] s = .next t.advance := by
  have hu : u.advance.halted = false := hi.halted_eq.trans hs
  rw [hi.execList_cons hs, hj.execList_cons hu, execList]

end

/-- Settles O19: LDM and LDL write different registers, so both orders make the same state. -/
theorem loadsAreIndependent : Obligations.LoadsAreIndependent := by
  intro a b s hs
  have hml := Completes.execList_pair (.ldm a) (.ldl b) hs
  have hlm := Completes.execList_pair (.ldl b) (.ldm a) hs
  exact ⟨hml.trans hlm.symm, hml, Completes.execList_pair (.ldm a) (.ldm b) hs,
    Completes.execList_pair (.ldl a) (.ldl b) hs⟩

end Sys2Proof.Machine

/-! ### The codec (R120 to R125) -/

namespace Sys2Proof.Machine

/-- The MSB stands above the n − 8 bits that the LSB keeps (90_conflicts.md C2). -/
theorem msbShift_eq (n : Width) : 8 - (16 - n.bits) = n.bits - 8 := by cases n <;> rfl

theorem retainedLsb_lt (n : Width) (l : Byte) : l.toNat / 2 ^ (16 - n.bits) < 2 ^ (n.bits - 8) := by
  have hsplit : n.bits - 8 + (16 - n.bits) = 8 := by cases n <;> rfl
  rw [Nat.div_lt_iff_lt_mul (Nat.two_pow_pos _), ← Nat.pow_add, hsplit]
  exact l.isLt

/-- The combined value in arithmetic form: the two shifted parts share no bit (R121). -/
theorem combine_eq (n : Width) (m l : Byte) :
    combine n m l = m.toNat * 2 ^ (n.bits - 8) + l.toNat / 2 ^ (16 - n.bits) := by
  have hlsb := retainedLsb_lt n l
  rw [← Nat.shiftRight_eq_div_pow] at hlsb ⊢
  rw [← Nat.shiftLeft_eq, Nat.shiftLeft_add_eq_or_of_lt hlsb, ← msbShift_eq]
  rfl

theorem combine_div (n : Width) (m l : Byte) : combine n m l / 2 ^ (n.bits - 8) = m.toNat := by
  rw [combine_eq, Nat.mul_comm, Nat.mul_add_div (Nat.two_pow_pos _),
    Nat.div_eq_of_lt (retainedLsb_lt n l), Nat.add_zero]

theorem combine_mod (n : Width) (m l : Byte) :
    combine n m l % 2 ^ (n.bits - 8) = l.toNat / 2 ^ (16 - n.bits) := by
  rw [combine_eq, Nat.mul_add_mod_self_right, Nat.mod_eq_of_lt (retainedLsb_lt n l)]

/-- At width 8 the combined value is the MSB byte. -/
theorem combine_w8 (m l : Byte) : combine .w8 m l = m.toNat :=
  (Nat.div_one _).symm.trans (combine_div .w8 m l)

/-- At width 16 the combined value is the byte pair. -/
theorem combine_w16 (m l : Byte) : combine .w16 m l = (m ++ l : Word).toNat :=
  (BitVec.toNat_append m l).symm

/-- Settles O21. -/
theorem combinePlacesMsbAboveLsb : Obligations.CombinePlacesMsbAboveLsb := by
  intro n m l
  refine ⟨?_, combine_lt n m l, combine_w8 m l⟩
  rw [msbShift_eq, combine_eq]

/-! #### Sign extension -/

theorem two_pow_bits (n : Width) : 2 ^ n.bits = 2 * 2 ^ (n.bits - 1) := by cases n <;> rfl

/-- Flip the sign bit, then subtract its weight (R122). -/
theorem signExtend_eq (n : Width) (raw : Nat) :
    signExtend n raw = (raw ^^^ 2 ^ (n.bits - 1) : Nat) - (2 ^ (n.bits - 1) : Nat) := by
  rw [← Nat.one_shiftLeft]
  rfl

/-- Flipping a clear bit above all the others adds its weight. -/
theorem xor_two_pow_of_lt {r p : Nat} (h : r < 2 ^ p) : r ^^^ 2 ^ p = r + 2 ^ p := by
  have hdiv : (r ^^^ 2 ^ p) / 2 ^ p = 1 := by
    rw [Nat.xor_div_two_pow, Nat.div_eq_of_lt h, Nat.div_self (Nat.two_pow_pos p), Nat.zero_xor]
  have hmod : (r ^^^ 2 ^ p) % 2 ^ p = r := by
    rw [Nat.xor_mod_two_pow, Nat.mod_eq_of_lt h, Nat.mod_self, Nat.xor_zero]
  rw [← Nat.mod_add_div (r ^^^ 2 ^ p) (2 ^ p), hdiv, hmod, Nat.mul_one]

theorem signExtend_of_lt {n : Width} {raw : Nat} (h : raw < 2 ^ (n.bits - 1)) :
    signExtend n raw = raw := by
  rw [signExtend_eq, xor_two_pow_of_lt h]
  omega

theorem signExtend_of_le {n : Width} {raw : Nat} (h : 2 ^ (n.bits - 1) ≤ raw)
    (hraw : raw < 2 ^ n.bits) : signExtend n raw = raw - (2 ^ n.bits : Nat) := by
  rw [two_pow_bits] at hraw ⊢
  obtain ⟨r, rfl⟩ := Nat.exists_eq_add_of_le' h
  rw [signExtend_eq, ← xor_two_pow_of_lt (by omega), Nat.xor_xor_cancel_right,
    xor_two_pow_of_lt (by omega)]
  omega

/-- Flipping the sign bit and subtracting the bias is the two's-complement reading (R124). -/
theorem signExtend_eq_toInt {n : Width} {raw : Nat} (hraw : raw < 2 ^ n.bits) :
    signExtend n raw = (BitVec.ofNat n.bits raw).toInt := by
  have hbits := two_pow_bits n
  rw [BitVec.toInt_eq_toNat_cond, BitVec.toNat_ofNat, Nat.mod_eq_of_lt hraw]
  split
  · exact signExtend_of_lt (by omega)
  · exact signExtend_of_le (by omega) hraw

/-- The general formula gives the codec's value at every width, the direct case of R123 included. -/
theorem codec_eq_signExtend (n : Width) (m l : Byte) : codec n m l = signExtend n (combine n m l) := by
  cases n with
  | w16 =>
    rw [signExtend_eq_toInt (combine_lt .w16 m l), combine_w16, BitVec.ofNat_toNat]
    rfl
  | w8 | w12 | w13 | w14 | w15 => rfl

theorem codec_eq_toInt (n : Width) (m l : Byte) :
    codec n m l = (BitVec.ofNat n.bits (combine n m l)).toInt := by
  rw [codec_eq_signExtend, signExtend_eq_toInt (combine_lt n m l)]

/-- RESULT's pattern is the n-bit pattern sign-extended. -/
theorem ofInt_codec (n : Width) (m l : Byte) :
    BitVec.ofInt 32 (codec n m l) = (BitVec.ofNat n.bits (combine n m l)).signExtend 32 :=
  congrArg (BitVec.ofInt 32) (codec_eq_toInt n m l)

theorem codec_of_lt {n : Width} {m l : Byte} (h : combine n m l < 2 ^ (n.bits - 1)) :
    codec n m l = combine n m l := by
  rw [codec_eq_signExtend, signExtend_of_lt h]

theorem codec_of_le {n : Width} {m l : Byte} (h : 2 ^ (n.bits - 1) ≤ combine n m l) :
    codec n m l = combine n m l - (2 ^ n.bits : Nat) := by
  rw [codec_eq_signExtend, signExtend_of_le h (combine_lt n m l)]

/-- Settles O22: the range is that of an n-bit pattern, and n is at most 32. -/
theorem signExtensionFlipsAndSubtracts : Obligations.SignExtensionFlipsAndSubtracts := by
  intro n m l _
  have hbits : n.bits ≤ 32 := by cases n <;> decide
  refine ⟨?_, ?_, ?_, ?_⟩
  · rw [codec_eq_signExtend, signExtend_eq, Nat.one_shiftLeft, Nat.cast_pow, Nat.cast_ofNat]
  · rw [codec_eq_toInt]
    exact BitVec.le_toInt _
  · rw [codec_eq_toInt]
    exact Int.le_sub_one_of_lt BitVec.toInt_lt
  · rw [ofInt_codec, BitVec.toInt_signExtend_of_le hbits, codec_eq_toInt]

/-- Settles O23. -/
theorem sixteenBitReadIsDirect : Obligations.SixteenBitReadIsDirect := fun m l =>
  ⟨rfl, codec_eq_toInt .w16 m l⟩

/-- Settles O24: bit n − 1 of raw is the sign bit of its n-bit pattern. -/
theorem codecIsTwosComplement : Obligations.CodecIsTwosComplement := by
  intro n m l
  refine ⟨?_, codec_eq_toInt n m l, ofInt_codec n m l, codec_eq_signExtend n m l⟩
  have hpos : n.bits - 1 < n.bits := by cases n <;> decide
  have hsign : (BitVec.ofNat n.bits (combine n m l)).msb = (combine n m l).testBit (n.bits - 1) := by
    rw [BitVec.msb_eq_getLsbD_last, BitVec.getLsbD_ofNat, decide_eq_true hpos, Bool.true_and]
  rw [codec_eq_toInt, BitVec.toInt_eq_msb_cond, hsign, BitVec.toNat_ofNat,
    Nat.mod_eq_of_lt (combine_lt n m l)]
  split
  · rw [Nat.cast_pow, Nat.cast_ofNat]
  · rw [Int.sub_zero]

/-! #### Packing a value into a raw pair (R131) -/

theorem truncTo_eq_toNat (n : Width) (v : Int) : truncTo n v = (BitVec.ofInt n.bits v).toNat := by
  rw [BitVec.toNat_ofInt, Nat.cast_pow, Nat.cast_ofNat, truncTo]

theorem truncTo_codec (n : Width) (m l : Byte) : truncTo n (codec n m l) = combine n m l := by
  rw [truncTo_eq_toNat, codec_eq_toInt, BitVec.ofInt_toInt, BitVec.toNat_ofNat,
    Nat.mod_eq_of_lt (combine_lt n m l)]

/-- The MSB of a raw pair holds the upper eight bits of the n-bit pattern. -/
theorem packRaw_fst_toNat (n : Width) (v : Int) :
    (packRaw n v).1.toNat = truncTo n v / 2 ^ (n.bits - 8) := by
  have hsplit : n.bits = 8 + (n.bits - 8) := by cases n <;> rfl
  have hlt : truncTo n v < 2 ^ (8 + (n.bits - 8)) := by
    rw [← hsplit, truncTo_eq_toNat]
    exact BitVec.isLt _
  rw [packRaw, BitVec.toNat_ofNat, Nat.shiftRight_eq_div_pow]
  exact Nat.mod_eq_of_lt (Nat.div_lt_of_lt_mul (by rwa [← Nat.pow_add, Nat.add_comm]))

/-- The LSB of a raw pair holds the other n − 8 bits at its top. -/
theorem packRaw_snd_toNat (n : Width) (v : Int) :
    (packRaw n v).2.toNat = truncTo n v % 2 ^ (n.bits - 8) * 2 ^ (16 - n.bits) := by
  have hsplit : 2 ^ (n.bits - 8) * 2 ^ (16 - n.bits) = 2 ^ 8 := by cases n <;> rfl
  have hlt : truncTo n v % 2 ^ (n.bits - 8) < 2 ^ (n.bits - 8) := Nat.mod_lt _ (Nat.two_pow_pos _)
  rw [packRaw, BitVec.toNat_ofNat, Nat.shiftLeft_eq]
  exact Nat.mod_eq_of_lt (hsplit ▸ Nat.mul_lt_mul_of_pos_right hlt (Nat.two_pow_pos _))

/-- The raw pair of v combines to the n-bit pattern of v, whatever bits the shift drops from the LSB. -/
theorem combine_packRaw {n : Width} {v : Int} {l : Byte}
    (hl : l.toNat / 2 ^ (16 - n.bits) = (packRaw n v).2.toNat / 2 ^ (16 - n.bits)) :
    combine n (packRaw n v).1 l = truncTo n v := by
  rw [combine_eq, hl, packRaw_fst_toNat, packRaw_snd_toNat, Nat.mul_div_cancel _ (Nat.two_pow_pos _),
    Nat.div_add_mod']

/-- Settles O25: a raw pair and a value of n bits have the same n-bit pattern. -/
theorem codecRoundTrips : Obligations.CodecRoundTrips := by
  refine ⟨fun n v hlo hhi l hl => ?_, fun n m l => ⟨BitVec.eq_of_toNat_eq ?_, ?_⟩⟩
  · have hpos : 0 < n.bits := by cases n <;> decide
    rw [codec_eq_toInt, combine_packRaw hl, truncTo_eq_toNat, BitVec.ofNat_toNat, BitVec.setWidth_eq]
    exact BitVec.toInt_ofInt_eq_self hpos hlo (Int.lt_of_le_sub_one hhi)
  · rw [packRaw_fst_toNat, truncTo_codec, combine_div]
  · rw [packRaw_snd_toNat, truncTo_codec, combine_mod]

/-- The upper half of the raw range is that of the pairs with bit 7 of the MSB set (R132). -/
theorem signBit_le_combine_iff (n : Width) (m l : Byte) :
    2 ^ (n.bits - 1) ≤ combine n m l ↔ m.msb = true := by
  have hsign : 2 ^ (n.bits - 1) = 2 ^ 7 * 2 ^ (n.bits - 8) := by cases n <;> rfl
  rw [hsign, ← Nat.le_div_iff_mul_le (Nat.two_pow_pos _), combine_div, BitVec.msb_eq_decide,
    decide_eq_true_iff]

theorem codec_neg_iff (n : Width) (m l : Byte) :
    codec n m l < 0 ↔ 2 ^ (n.bits - 1) ≤ combine n m l := by
  have hlt := combine_lt n m l
  rcases Nat.lt_or_ge (combine n m l) (2 ^ (n.bits - 1)) with h | h
  · rw [codec_of_lt h]
    omega
  · rw [codec_of_le h]
    omega

/-- Settles O26: in the lower half the value is raw, in the upper half raw less 2^n. -/
theorem codecMonotoneAndSigned : Obligations.CodecMonotoneAndSigned := by
  intro n m l m' l'
  have hpos : 0 < 2 ^ (n.bits - 1) := Nat.two_pow_pos _
  have hbits := two_pow_bits n
  refine ⟨(codec_neg_iff n m l).trans (signBit_le_combine_iff n m l), fun hlt hhalf => ?_,
    fun hraw => ?_, fun hraw => ?_⟩
  · rcases hhalf with hlower | hupper
    · rw [codec_of_lt (hlt.trans hlower), codec_of_lt hlower]
      exact Int.ofNat_lt.mpr hlt
    · rw [codec_of_le hupper, codec_of_le (hupper.trans hlt.le)]
      omega
  · rw [codec_of_lt (by omega), hraw, Nat.cast_sub hpos, Nat.cast_pow, Nat.cast_ofNat, Nat.cast_one]
  · rw [codec_of_le (Nat.le_of_eq hraw.symm), hraw, hbits]
    push_cast
    ring

/-! ### DECW, DECC and FAIL (R127 to R130) -/

/-- R127: only a decode of width 8 records 0x00 in place of RAW_LSB. -/
theorem recordedLsb_eq_ite (n : Width) (s : State) :
    recordedLsb n s = if n.bits = 8 then 0x00#8 else s.rawLsb := by
  cases n <;> rfl

/-- The state a decode that completes makes, with pc advanced (R128, R129). -/
theorem complete_setReading_decoded (n : Width) (s : State) :
    complete (s.setReading .ok (decodedResult n s) s.rawMsb (recordedLsb n s)) = .next { s with
      result := BitVec.ofInt 32 (codec n s.rawMsb s.rawLsb), rMsb := s.rawMsb,
      rLsb := if n.bits = 8 then 0x00#8 else s.rawLsb, rstat := .ok, pc := s.pc + 1 } := by
  rw [recordedLsb_eq_ite]
  rfl

/-- A decode whose raw bytes are written makes an Ok reading of them, as DECW or as DECC. -/
theorem exec_decode_ready {i : Instr} {n : Width} {s : State} (hs : s.halted = false)
    (hi : i = .decw n ∨ ∃ d c, i = .decc d c ∧ layoutWidth d c = some n) (hr : rawReady n s = true) :
    exec i s = complete (s.setReading .ok (decodedResult n s) s.rawMsb (recordedLsb n s)) := by
  rcases hi with rfl | ⟨d, c, rfl, row⟩
  · exact (Completes.decw hr).exec_eq hs
  · exact (Completes.decc row hr).exec_eq hs

/-- Fewer choices of fields take ILLEGAL_CMD where more do. -/
theorem illegalWhere_mono {op : BitVec 4} {p q : BitVec 4 → Byte → Prop} (hq : illegalWhere op q)
    (h : ∀ f i, p f i → q f i) : illegalWhere op p :=
  fun v s hs hupper hop hbad => hq v s hs hupper hop (h _ _ hbad)

/-- Settles O27: the illegal words are those of O8 and those of O7 with a nonzero I. -/
theorem decwDecodesRawPair : Obligations.DecwDecodesRawPair := by
  refine ⟨fun n => by cases n <;> rfl, fun n s hs hm hl => ?_, fun n s hs hr => ?_,
    illegalWhere_or widthCodesOfDecw.2 (mustBeZeroFieldsAreIllegal.1 0x3#4 (by decide))⟩
  · rw [exec_decode_ready hs (.inl rfl) ((rawReady_iff n s).mpr ⟨hm, hl⟩), complete_setReading_decoded]
  · exact exec_decode_unwritten hs (.inl rfl) ((rawReady_eq_false_iff n s).mpr hr)

/-- Settles O28: the reserved pairs of codes are the five of O9. -/
theorem deccDecodesWithChannelWidth : Obligations.DeccDecodesWithChannelWidth := by
  refine ⟨fun d c => by cases d <;> cases c <;> rfl, fun d c n s row hs hm hl => ?_,
    fun d c n s row hs hr => ?_, ?_⟩
  · have hr := (rawReady_iff n s).mpr ⟨hm, hl⟩
    have hdecc := exec_decode_ready hs (.inr ⟨d, c, rfl, row⟩) hr
    exact ⟨hdecc.trans (exec_decode_ready hs (.inl rfl) hr).symm,
      hdecc.trans (complete_setReading_decoded n s)⟩
  · exact exec_decode_unwritten hs (.inr ⟨d, c, rfl, row⟩) ((rawReady_eq_false_iff n s).mpr hr)
  · have hcodes : ∀ f : BitVec 4, (f.extractLsb' 2 2 = 1#2 ∧ f.extractLsb' 0 2 = 3#2) ∨
        f.extractLsb' 2 2 = 3#2 → f ∈ [0x7#4, 0xC#4, 0xD#4, 0xE#4, 0xF#4] := by decide
    have hchannel := illegalWhere_mono channelCodesOfDecc.2 fun f _ => hcodes f
    have hI := mustBeZeroFieldsAreIllegal.1 0x4#4 (by decide)
    exact illegalWhere_mono (illegalWhere_or hchannel hI) fun _ _ => or_assoc.mpr

/-- At width 8 RESULT is the sign extension of RAW_MSB (R127). -/
theorem decodedResult_w8 (s : State) : decodedResult .w8 s = s.rawMsb.signExtend 32 := by
  rw [decodedResult, ofInt_codec, combine_w8, BitVec.ofNat_toNat]
  rfl

/-- Settles O30: both forms decode at width 8, which asks for MSB_V alone. -/
theorem eightBitDecodeIgnoresLsb : Obligations.EightBitDecodeIgnoresLsb := by
  intro i s b v hi hs hm
  have hform : i = .decw .w8 ∨ ∃ d c, i = .decc d c ∧ layoutWidth d c = some .w8 :=
    hi.imp_right fun h => ⟨_, _, h, rfl⟩
  have hr : rawReady .w8 { s with rawLsb := b, lsbV := v } = true :=
    (rawReady_iff _ _).mpr ⟨hm, fun h => absurd h (by decide)⟩
  refine (exec_decode_ready (s := { s with rawLsb := b, lsbV := v }) hs hform hr).trans ?_
  rw [decodedResult_w8]
  rfl

/-- Settles O31. -/
theorem failRecordsFailedReading : Obligations.FailRecordsFailedReading := by
  obtain ⟨nonzeroI, nonzeroF⟩ := mustBeZeroFieldsAreIllegal
  exact ⟨rfl, fun s hs => exec_fail hs,
    illegalWhere_or (nonzeroF 0x5#4 (by decide)) (nonzeroI 0x5#4 (by decide))⟩

@[simp] theorem readBuffer_setReading (s : State) (st : RStat) (r : BitVec 32) (m l : Byte) (a : Nat) :
    readBuffer (s.setReading st r m l) a = readBuffer s a := rfl

/-- Settles O43: nothing changes where the block is halted, a completed command writes the reading and pc, and
a fault, which FAIL never takes, writes the fault registers alone. -/
theorem readingCommandsFrame : Obligations.ReadingCommandsFrame := by
  intro i s t hi h
  rcases exec_next h with ⟨_, rfl⟩ | ⟨_, u, hc, rfl⟩ | ⟨hs, code, hf, rfl⟩
  · simp
  · rcases hi with ⟨n, rfl⟩ | ⟨d, c, rfl⟩ | rfl
    · cases hc with
      | decw _ => simp
    · cases hc with
      | decc _ _ => simp
    · cases hc with
      | fail => simp
  · have hfail : i ≠ .fail := by
      rintro rfl
      cases hf
    simp [hs, hfail]

end Sys2Proof.Machine

/-! ### The renderings (R142, R143) -/

namespace Sys2Proof.Machine

/-- The digits that `digitsUpTo` makes stand for the number, when the fuel suffices for all of them. -/
theorem foldl_digitsUpTo {fuel m : Nat} (h : m < fuel) :
    (digitsUpTo fuel m).foldl (fun a b => 10 * a + (b.toNat - 0x30)) 0 = m := by
  induction fuel generalizing m with
  | zero => exact absurd h (Nat.not_lt_zero m)
  | succ fuel ih =>
    rw [digitsUpTo]
    split
    · rename_i hm
      simp [decDigit_toNat hm]
    · rw [List.foldl_append, ih (by omega), List.foldl_cons, List.foldl_nil,
        decDigit_toNat (Nat.mod_lt m (by decide))]
      omega

/-- The first digit of a positive number is not zero. -/
theorem digitsUpTo_head? {fuel m : Nat} (hpos : 0 < m) (h : m < fuel) :
    ∃ d, 0 < d ∧ d < 10 ∧ (digitsUpTo fuel m).head? = some (decDigit d) := by
  induction fuel generalizing m with
  | zero => exact absurd h (Nat.not_lt_zero m)
  | succ fuel ih =>
    rw [digitsUpTo]
    split
    · rename_i hm
      exact ⟨m, hpos, hm, rfl⟩
    · obtain ⟨d, hd, hd', hhead⟩ := ih (m := m / 10) (by omega) (by omega)
      exact ⟨d, hd, hd', by rw [List.head?_append, hhead, Option.some_or]⟩

theorem digits_head?_ne_zero {m : Nat} (hpos : 0 < m) : (digits m).head? ≠ some 0x30#8 := by
  obtain ⟨d, hd, hd', hhead⟩ := digitsUpTo_head? hpos (Nat.lt_succ_self m)
  rw [digits, hhead]
  intro hzero
  have hnat := congrArg BitVec.toNat (Option.some.inj hzero)
  rw [decDigit_toNat hd', BitVec.toNat_ofNat] at hnat
  omega

/-- Settles O32: the value and the first digit by induction on the fuel of `digitsUpTo`. -/
theorem decimalTokenOfInteger : Obligations.DecimalTokenOfInteger :=
  ⟨fun _ => rfl,
    fun m => ⟨fun _ hb => mem_digitsUpTo_bounds hb, foldl_digitsUpTo (Nat.lt_succ_self m),
      digits_head?_ne_zero⟩,
    rfl, fun _ hlo hhi => dec_length ⟨hlo, hhi⟩⟩

/-- `h(d)` is the entry of R143's sixteen characters at d. -/
theorem getElem?_hexDigit (d : BitVec 4) :
    [0x30#8, 0x31#8, 0x32#8, 0x33#8, 0x34#8, 0x35#8, 0x36#8, 0x37#8, 0x38#8, 0x39#8, 0x61#8, 0x62#8,
      0x63#8, 0x64#8, 0x65#8, 0x66#8][d.toNat]? = some (hexDigit d) := by
  revert d
  decide

theorem hexToken_of_ok {s : State} (h : s.rstat = .ok) :
    hexToken s = hex2 s.rMsb ++ [0x20#8] ++ hex2 s.rLsb := by
  rw [hexToken, h]
  rfl

theorem hexToken_of_failed {s : State} (h : s.rstat = .failed) : hexToken s = placeholder := by
  rw [hexToken, h]

theorem decToken_of_ok {s : State} (h : s.rstat = .ok) : decToken s = dec s.result.toInt := by
  rw [decToken, h]

theorem decToken_of_failed {s : State} (h : s.rstat = .failed) : decToken s = placeholder := by
  rw [decToken, h]

/-- Settles O33: the two digits are those of the byte's halves, and a decode of width 8 records 0x00. -/
theorem hexTokenOfRawBytes : Obligations.HexTokenOfRawBytes := by
  refine ⟨fun b => ⟨_, _, rfl, ?_, ?_⟩, fun s hok => ⟨hexToken_of_ok hok, ?_⟩,
    fun i s t hi hs hm h => ?_⟩
  · have hhigh : (b.extractLsb' 4 4).toNat = b.toNat / 16 := by
      rw [BitVec.extractLsb'_toNat, Nat.shiftRight_eq_div_pow]
      omega
    rw [← hhigh, getElem?_hexDigit]
  · have hlow : (b.extractLsb' 0 4).toNat = b.toNat % 16 := BitVec.extractLsb'_toNat ..
    rw [← hlow, getElem?_hexDigit]
  · rw [hexToken_length, hok]
    rfl
  · have hform : i = .decw .w8 ∨ ∃ d c, i = .decc d c ∧ layoutWidth d c = some .w8 :=
      hi.imp_right fun h => ⟨_, _, h, rfl⟩
    have hr : rawReady .w8 s = true := (rawReady_iff _ _).mpr ⟨hm, fun h => absurd h (by decide)⟩
    have ht := complete_next.mp ((exec_decode_ready hs hform hr).symm.trans h)
    have hzero : hex2 0x00#8 = [0x30#8, 0x78#8, 0x30#8, 0x30#8] := by decide
    rw [ht, hexToken_of_ok rfl, List.append_assoc]
    simp [recordedLsb, hzero]

end Sys2Proof.Machine

/-! ### OUTD and OUTH (R144, R145) -/

namespace Sys2Proof.Machine

/-- The commands without operands take ILLEGAL_CMD with a nonzero F or I (R75). -/
theorem illegalWhere_nonzero_operand {op : BitVec 4}
    (h : op ∈ [0x0#4, 0x5#4, 0x6#4, 0x7#4, 0x8#4, 0x9#4]) :
    illegalWhere op fun f i => f ≠ 0#4 ∨ i ≠ 0#8 := by
  obtain ⟨nonzeroI, nonzeroF⟩ := mustBeZeroFieldsAreIllegal
  exact illegalWhere_or (nonzeroF op (by revert op; decide)) (nonzeroI op (by revert op; decide))

/-- Settles O34: one clause for each RSTAT. -/
theorem outdEmitsDecimalUnit : Obligations.OutdEmitsDecimalUnit := by
  refine ⟨rfl, fun s hs hok => ?_, fun s hs hfailed => ?_, fun s hs => exec_outd_noReading hs,
    illegalWhere_nonzero_operand (by decide)⟩
  · rw [exec_outd hs (by simp [hok]), decToken_of_ok hok]
    rfl
  · rw [exec_outd hs (by simp [hfailed]), decToken_of_failed hfailed]
    rfl

/-- Settles O35: one clause for each RSTAT. -/
theorem outhEmitsHexUnit : Obligations.OuthEmitsHexUnit := by
  refine ⟨rfl, fun s hs hok => ?_, fun s hs hfailed => ?_, fun s hs => exec_outh_noReading hs,
    illegalWhere_nonzero_operand (by decide)⟩
  · rw [exec_outh hs (by simp [hok]), hexToken_of_ok hok]
    rfl
  · rw [exec_outh hs (by simp [hfailed]), hexToken_of_failed hfailed]
    rfl

end Sys2Proof.Machine

/-! ### PACK and PCLR (R147 to R149) -/

namespace Sys2Proof.Machine

/-- The bytes PACK writes, as parts of RESULT (R146). -/
theorem packBytes_eq_ite (s : State) :
    packBytes s = (if s.rstat = .failed then 0x00#8 else s.result.extractLsb' 8 8,
      if s.rstat = .failed then 0x00#8 else s.result.extractLsb' 0 8) := by
  have hhigh : (packedHalf s).extractLsb' 8 8 = s.result.extractLsb' 8 8 :=
    BitVec.extractLsb'_setWidth_of_le (by decide)
  have hlow : (packedHalf s).extractLsb' 0 8 = s.result.extractLsb' 0 8 :=
    BitVec.extractLsb'_setWidth_of_le (by decide)
  rw [packBytes, hhigh, hlow]
  cases s.rstat <;> rfl

/-- Where two bytes fit, PIDX + 2 does not wrap. -/
theorem packReading_pidx_toNat {s : State} (h : s.pidx.toNat + 2 ≤ s.bufLen.toNat) :
    s.packReading.pidx.toNat = s.pidx.toNat + 2 := by
  rw [State.packReading_pidx, BitVec.toNat_add]
  exact Nat.mod_eq_of_lt (h.trans_lt s.bufLen.isLt)

/-- Settles O38: the bytes by the laws of `State.packReading`, and the faults in the order of R203. -/
theorem packAppendsBigEndian : Obligations.PackAppendsBigEndian := by
  refine ⟨rfl, fun s hs hr hfits => ?_, fun s hs => exec_pack_noReading hs,
    fun s hs hr hfull => exec_pack_full hs hr ((packFits_eq_false_iff s).mpr hfull),
    illegalWhere_nonzero_operand (by decide)⟩
  have hbytes := packBytes_eq_ite s
  refine ⟨_, exec_pack hs hr ((packFits_iff s).mpr hfits), rfl, packReading_pidx_toNat hfits, ?_, ?_,
    fun a => readBuffer_packReading_other s⟩
  · exact (readBuffer_packReading_hi s).trans (by rw [hbytes])
  · exact (readBuffer_packReading_lo s).trans (by rw [hbytes])

/-- Settles O39. -/
theorem pclrClearsIndex : Obligations.PclrClearsIndex :=
  ⟨rfl, fun _ hs => exec_pclr hs, illegalWhere_nonzero_operand (by decide)⟩

/-- `Packed k s t`: t is s after k PACKs of its reading that fit. `execList_packs` ties it to the model. -/
structure Packed (k : Nat) (s t : State) : Prop where
  pidx : t.pidx.toNat = s.pidx.toNat + 2 * k
  halted : t.halted = s.halted
  pc : t.pc = s.pc + k
  bytes : ∀ j < k, readBuffer t (s.pidx.toNat + 2 * j) = some (packBytes s).1 ∧
    readBuffer t (s.pidx.toNat + 2 * j + 1) = some (packBytes s).2
  frame : ∀ a, a < s.pidx.toNat ∨ s.pidx.toNat + 2 * k ≤ a → readBuffer t a = readBuffer s a

theorem Packed.zero (s : State) : Packed 0 s s :=
  ⟨rfl, rfl, rfl, fun j hj => absurd hj (Nat.not_lt_zero j), fun _ _ => rfl⟩

/-- One PACK, and k more after it. -/
theorem Packed.succ {k : Nat} {s t : State} (hfits : s.pidx.toNat + 2 ≤ s.bufLen.toNat)
    (h : Packed k s.packReading.advance t) : Packed (k + 1) s t := by
  obtain ⟨hpidx, hhalted, hpc, hbytes, hframe⟩ := h
  rw [State.advance_pidx, packReading_pidx_toNat hfits] at hpidx hbytes hframe
  refine ⟨by omega, hhalted, hpc.trans (Nat.add_right_comm ..), fun j hj => ?_, fun a ha => ?_⟩
  · cases j with
    | zero =>
      exact ⟨(hframe _ (by omega)).trans (readBuffer_packReading_hi s),
        (hframe _ (by omega)).trans (readBuffer_packReading_lo s)⟩
    | succ j =>
      have hindex : s.pidx.toNat + 2 * (j + 1) = s.pidx.toNat + 2 + 2 * j := by omega
      rw [hindex]
      exact hbytes j (by omega)
  · have hhi : a ≠ s.pidx.toNat := by omega
    have hlo : a ≠ s.pidx.toNat + 1 := by omega
    exact (hframe a (by omega)).trans (readBuffer_packReading_other s hhi hlo)

/-- k PACKs of a reading that fit all complete. -/
theorem execList_packs {k : Nat} {s : State} (hs : s.halted = false) (hr : s.rstat ≠ .none)
    (hfit : s.pidx.toNat + 2 * k ≤ s.bufLen.toNat) :
    ∃ t, execList (List.replicate k .pack) s = .next t ∧ Packed k s t := by
  induction k generalizing s with
  | zero => exact ⟨s, rfl, .zero s⟩
  | succ k ih =>
    have hfits : s.pidx.toNat + 2 ≤ s.bufLen.toNat := by omega
    have hrest : s.packReading.advance.pidx.toNat + 2 * k ≤ s.bufLen.toNat := by
      rw [State.advance_pidx, packReading_pidx_toNat hfits]
      omega
    obtain ⟨t, hexec, ht⟩ := ih (s := s.packReading.advance) hs hr hrest
    have hpack : Completes s .pack s.packReading := .pack hr ((packFits_iff s).mpr hfits)
    exact ⟨t, (hpack.execList_cons hs _).trans hexec, ht.succ hfits⟩

/-- Settles O41: PCLR sets PIDX to 0, and k PACKs from there fit. -/
theorem finalIndexCountsPacks : Obligations.FinalIndexCountsPacks := by
  intro k s hs hr hfit
  have hzero : (s.setPidx 0#16).advance.pidx.toNat = 0 := rfl
  obtain ⟨t, hexec, hpidx, hhalted, hpc, hbytes, hframe⟩ :=
    execList_packs (k := k) (s := (s.setPidx 0#16).advance) hs hr (by rwa [hzero, Nat.zero_add])
  simp only [hzero, Nat.zero_add] at hpidx hbytes hframe
  exact ⟨t, (Completes.pclr.execList_cons hs _).trans hexec, hpidx, hhalted.trans hs,
    hpc.trans (Nat.add_right_comm ..), hbytes, fun a ha => hframe a (.inr ha)⟩

end Sys2Proof.Machine

/-! ### Faults and the halted block (R202 to R206) -/

namespace Sys2Proof

/-- A CMD write that decodes is the word of a legal command, with bits [31:16] zero (R71, R78). -/
theorem decodeCmd_ok {v : PortValue} {i : Instr} (h : decodeCmd v = .ok i) :
    i.wellFormed = true ∧ encode i = lowerField v := by
  unfold decodeCmd at h
  split_ifs at h
  exact decodeWord_eq_ok_iff.mp h

end Sys2Proof

namespace Sys2Proof.Machine

/-- The cause of each fault code for the CMD write v in a running block (R202, R203). `submit_of_cause` and
`submit_running_cause` tie it to the model. -/
def FaultCause (v : PortValue) (s : State) : FaultCode → Prop
  | .none => False
  | .illegalCmd => ∃ r, decodeCmd v = .illegal r
  | .rawUnwritten => ∃ n : Width,
      (decodeCmd v = .ok (.decw n) ∨
        ∃ d c, decodeCmd v = .ok (.decc d c) ∧ layoutWidth d c = some n) ∧
      (s.msbV = false ∨ (8 < n.bits ∧ s.lsbV = false))
  | .noReading => s.rstat = .none ∧
      (decodeCmd v = .ok .outd ∨ decodeCmd v = .ok .outh ∨ decodeCmd v = .ok .pack)
  | .packOverflow => s.rstat ≠ .none ∧ decodeCmd v = .ok .pack ∧ s.bufLen.toNat < s.pidx.toNat + 2

section
variable {v : PortValue} {i : Instr} {s t : State} {code : FaultCode}

theorem FaultCause.code_ne_none (h : FaultCause v s code) : code ≠ .none := by
  rintro rfl
  exact h

/-- The failed check of a decoded command is the cause of its fault: a DECC that decodes has a row. -/
theorem Faults.cause (h : Faults s i code) (hd : decodeCmd v = .ok i) : FaultCause v s code := by
  cases h with
  | decw unwritten => exact ⟨_, .inl hd, (rawReady_eq_false_iff _ s).mp unwritten⟩
  | decc row unwritten => exact ⟨_, .inr ⟨_, _, hd, row⟩, (rawReady_eq_false_iff _ s).mp unwritten⟩
  | deccNoRow noRow => exact absurd (decodeCmd_ok hd).1 (by simp [Instr.wellFormed, noRow])
  | outd noReading => exact ⟨noReading, .inl hd⟩
  | outh noReading => exact ⟨noReading, .inr (.inl hd)⟩
  | packNoReading noReading => exact ⟨noReading, .inr (.inr hd)⟩
  | packOverflow reading full => exact ⟨reading, hd, (packFits_eq_false_iff s).mp full⟩

/-- Behind every cause stands a write of no command, or a command that fails one of its checks. -/
theorem FaultCause.illegal_or_faults (h : FaultCause v s code) :
    (code = .illegalCmd ∧ ∃ r, decodeCmd v = .illegal r) ∨
    ∃ i, decodeCmd v = .ok i ∧ Faults s i code := by
  cases code with
  | none => exact h.elim
  | illegalCmd => exact .inl ⟨rfl, h⟩
  | rawUnwritten =>
    obtain ⟨n, hdecode, hraw⟩ := h
    have unwritten := (rawReady_eq_false_iff n s).mpr hraw
    rcases hdecode with hd | ⟨d, c, hd, row⟩
    · exact .inr ⟨_, hd, .decw unwritten⟩
    · exact .inr ⟨_, hd, .decc row unwritten⟩
  | noReading =>
    obtain ⟨noReading, hd | hd | hd⟩ := h
    · exact .inr ⟨_, hd, .outd noReading⟩
    · exact .inr ⟨_, hd, .outh noReading⟩
    · exact .inr ⟨_, hd, .packNoReading noReading⟩
  | packOverflow =>
    obtain ⟨reading, hd, full⟩ := h
    exact .inr ⟨_, hd, .packOverflow reading ((packFits_eq_false_iff s).mpr full)⟩

/-- A decoded command's fault is taken with the low half of the write, which is the command's word. -/
theorem submit_of_faults (hs : s.halted = false) (hd : decodeCmd v = .ok i) (h : Faults s i code) :
    submit v s = raiseFault code (lowerField v) s := by
  rw [submit_of_ok hs hd, h.exec_eq hs, (decodeCmd_ok hd).2]

/-- Where a fault has its cause, the write takes it. -/
theorem submit_of_cause (hs : s.halted = false) (h : FaultCause v s code) :
    submit v s = raiseFault code (lowerField v) s := by
  rcases h.illegal_or_faults with ⟨rfl, r, hd⟩ | ⟨i, hd, hf⟩
  · exact submit_of_illegal hs hd
  · exact submit_of_faults hs hd hf

/-- A CMD write in a running block completes, with HALTED and FAULT_CODE kept and pc one more, or enters a
fault that has its cause. -/
theorem submit_running_cause (hs : s.halted = false) (h : submit v s = .next t) :
    (t.halted = false ∧ t.faultCode = s.faultCode ∧ t.pc = s.pc + 1) ∨
    (∃ code, FaultCause v s code ∧ t = s.faultEntry code (lowerField v)) := by
  rcases submit_running v hs with ⟨r, hd, he⟩ | ⟨i, u, _, hc, he⟩ | ⟨i, code, hd, hf, _⟩
  · exact .inr ⟨.illegalCmd, ⟨r, hd⟩, raiseFault_next.mp (he.symm.trans h)⟩
  · obtain rfl := complete_next.mp (he.symm.trans h)
    exact .inl ⟨hc.halted_eq.trans hs, congrArg Prod.fst hc.faultRegs_eq, congrArg (· + 1) hc.pc_eq⟩
  · exact .inr ⟨code, hf.cause hd, raiseFault_next.mp ((submit_of_faults hs hd hf).symm.trans h)⟩

/-- With no fault recorded before, the write records a fault exactly where that fault has its cause. -/
theorem submit_faultCode_eq_iff (hs : s.halted = false) (hclear : s.faultCode = .none)
    (h : submit v s = .next t) (hcode : code ≠ .none) : t.faultCode = code ↔ FaultCause v s code := by
  constructor
  · rintro rfl
    rcases submit_running_cause hs h with ⟨_, hkept, _⟩ | ⟨code, hcause, rfl⟩
    · exact absurd (hkept.trans hclear) hcode
    · exact hcause
  · intro hcause
    rw [raiseFault_next.mp ((submit_of_cause hs hcause).symm.trans h), State.faultEntry_faultCode]

end

/-- Settles O46: a write that ends halted has not completed, so its next state is that of fault entry. -/
theorem faultEntryIsPrecise : Obligations.FaultEntryIsPrecise := by
  intro v s t hs h hhalted
  rcases submit_running_cause hs h with ⟨hrunning, _, _⟩ | ⟨code, hcause, ht⟩
  · exact absurd (hhalted.symm.trans hrunning) (by decide)
  · exact ⟨code, hcause.code_ne_none, ht⟩

/-- Settles O47: the four codes by `submit_faultCode_eq_iff`, the rest by the two ways a write ends. -/
theorem faultsHaveExactlyTheirCauses : Obligations.FaultsHaveExactlyTheirCauses := by
  intro v s hs hclear
  obtain ⟨t, h⟩ := submit_total v s
  have hcode {code : FaultCode} (hne : code ≠ .none) : t.faultCode = code ↔ FaultCause v s code :=
    submit_faultCode_eq_iff hs hclear h hne
  refine ⟨t, h, hcode (by decide), hcode (by decide), hcode (by decide), hcode (by decide), ?_⟩
  rcases submit_running_cause hs h with ⟨hrunning, hkept, hpc⟩ | ⟨code, hcause, rfl⟩
  · simp [hrunning, hkept, hclear, hpc]
  · simp [hcause.code_ne_none, lowerField]

/-- Settles O14: each access by its law for a halted block, HALTED being what ends the run badly (R222). -/
theorem haltedBlockIgnoresCommands : Obligations.HaltedBlockIgnoresCommands := by
  intro s hs
  have hsubmit (v : PortValue) : submit v s = .next s := whenRunning_of_halted _ hs
  refine ⟨hsubmit, fun i => exec_of_halted i hs, fun v => ?_, fun addr r hr => ?_, hs, ?_, fun t => ?_⟩
  · exact (portWrite_cmd v s (portDecode_blockBase_add 0x00)).trans (hsubmit v)
  · rw [portRead, hr]
  · rw [State.endsWell, hs]
    rfl
  · simp [step_of_halted hs]

end Sys2Proof.Machine
